-- ==== Sys2Proof/Word.lean ====
section
/-! DEFINITION. The word types of the block: the 8-bit byte (20_memory.md R51) and the 6-bit data field of
a payload byte (30_encoding.md R72). Every quantity is unsigned (00_scope.md R10, R14). -/

namespace Sys2Proof

/-- The addressable unit, an 8-bit byte (20_memory.md R51). -/
abbrev Byte := BitVec 8

/-- The 6 data bits of a payload byte (30_encoding.md R72). -/
abbrev Sextet := BitVec 6

end Sys2Proof
end

