-- ==== Sys2Proof/Config.lean ====
section
/-! DEFINITION. The configuration record `Cfg` (00_scope.md R7), the derived byte constants (R8), the constraints
on a configuration, and the free values: constants with no body for what the spec leaves unspecified. -/

namespace Sys2Proof

/-- The format constants the source names but gives no value for (00_scope.md R7).
`LEN_W` is left OPEN by the spec: the model's lengths are unbounded naturals (log 4). -/
structure Cfg where
  /-- `LEAD_HI`, bits 7:4 of every lead byte. -/
  leadHi : BitVec 4
  /-- `LEAD_MID`, bits 3:2 of the lead bytes ENC emits. -/
  leadMid : BitVec 2
  /-- `CONT`, the continuation marker in bits 7:6 of a payload byte. -/
  cont : BitVec 2
  /-- `TAG_REG`, the tag ENC emits for a Regular unit. -/
  tagReg : BitVec 2
  /-- `NCM`, the noncharacter-marker value of payload byte 1. -/
  ncm : Byte
  /-- `EMPTY_UNITS`, the number of units ENCODE makes of the empty input. -/
  emptyUnits : Fin 2
deriving DecidableEq, Repr

namespace Cfg

/-- The defaults the spec decided (00_scope.md R7, decisions D1 to D6; log 2, log 3: PRESUMED, unsafe). -/
def decided : Cfg :=
  { leadHi := 0b1111#4, leadMid := 0b00#2, cont := 0b10#2, tagReg := 0b10#2, ncm := 0x82#8, emptyUnits := 0 }

/-- `TAG_TUN = 0b01`, fixed by the source (30_encoding.md R74). -/
def tagTun : BitVec 2 := 0b01#2

/-- `TAG_RSV = 0b11`, fixed by the source (30_encoding.md R74). -/
def tagRsv : BitVec 2 := 0b11#2

/-- `C = CONT << 6`, the pure continuation marker (00_scope.md R8). -/
def mark (c : Cfg) : Byte := c.cont.setWidth 8 <<< 6

/-- `C_ALL = C | 0x3F` (00_scope.md R8). -/
def markAll (c : Cfg) : Byte := c.mark ||| 0x3F#8

/-- `C_ALL1 = C | 0x3E` (00_scope.md R8). -/
def markAll1 (c : Cfg) : Byte := c.mark ||| 0x3E#8

/-- `SKIP1 = C | 0`, the skip marker for skip 1 (00_scope.md R8). -/
def skip1 (c : Cfg) : Byte := c.mark ||| 0#8

/-- `SKIP2 = C | 1`, the skip marker for skip 2 (00_scope.md R8). -/
def skip2 (c : Cfg) : Byte := c.mark ||| 1#8

/-- `LEAD(t) = (LEAD_HI << 4) | (LEAD_MID << 2) | t` (00_scope.md R8). -/
def lead (c : Cfg) (t : BitVec 2) : Byte :=
  (c.leadHi.setWidth 8 <<< 4) ||| (c.leadMid.setWidth 8 <<< 2) ||| t.setWidth 8

/-- The constraints of 00_scope.md R7 that the round trip needs: `TAG_REG[0] = 0`, `NCM ≠ C`, `NCM ≠ C | 1`. -/
abbrev Legal (c : Cfg) : Prop :=
  c.tagReg.extractLsb' 0 1 = 0#1 ∧ c.ncm ≠ c.skip1 ∧ c.ncm ≠ c.skip2

/-- The constraint `NCM[7:6] = CONT` of 00_scope.md R7, needed only for well-formed output bytes. -/
abbrev MarkedNcm (c : Cfg) : Prop := c.ncm.extractLsb' 6 2 = c.cont

end Cfg

/-- A natural the spec leaves unspecified (10_state.md R31 `err_off`, U14 transient fields between operations),
the `k`-th drawn: no body, so nothing constrains it (log 6). -/
opaque Config.freeNat : Nat → Nat

/-- A byte sequence the spec leaves unspecified (U6: the destination after `MalformedInput`; U14), the `k`-th drawn:
no body, so nothing constrains it (log 6, log 7). -/
opaque Config.freeBytes : Nat → List Byte

end Sys2Proof
end

