-- ==== Sys2Proof/Syntax.lean ====
section
/-! DEFINITION. The instructions of the block: the five tofu unit variants of spec/opcode_table.json, one
constructor per row (30_encoding.md R75, R83), with every bit of a unit that its variant does not fix as an operand. -/

namespace Sys2Proof

/-- A payload byte, its continuation marker field `cm` (bits 7:6) apart from its data field `d` (bits 5:0)
(30_encoding.md R72). -/
structure Payload where
  cm : BitVec 2
  d : Sextet
deriving DecidableEq, Repr

/-- A tofu unit whose lead nibble is valid, by variant (30_encoding.md R75).
`mid` is bits 3:2 of the lead byte, which DEC ignores (R71); `ign1`, `ign2`, `ign3` are the further bits DEC
ignores (R86): they are operands so that no bit of a unit is dropped. -/
inductive Instr where
  /-- REG, `Regular`: `tag[0] = 0`; `tag1` is `tag[1]`, which DEC ignores (R74, R76). -/
  | reg (mid : BitVec 2) (tag1 : BitVec 1) (p1 p2 p3 : Payload)
  /-- TUN, `TerminalUnpadded`: `tag = 0b01` (R77). -/
  | tun (mid : BitVec 2) (p1 p2 p3 : Payload)
  /-- NCS, `NoncharacterSubstitute`: `tag = 0b11`, `b1 = NCM`; `ign2` is `b2`, `ign3` is `b3[7:4]` (R80). -/
  | ncs (mid : BitVec 2) (ign2 : Byte) (ign3 : BitVec 4) (special : BitVec 1) (plane : BitVec 2) (flag : BitVec 1)
  /-- TPD1, `TerminalPadded` with skip 1: `tag = 0b11`, `b1 ≠ NCM`, `b1[0] = 0`; `ign1` is `b1[7:1]` (R78). -/
  | tpd1 (mid : BitVec 2) (ign1 : BitVec 7) (p2 p3 : Payload)
  /-- TPD2, `TerminalPadded` with skip 2: `tag = 0b11`, `b1 ≠ NCM`, `b1[0] = 1`; `ign1` is `b1[7:1]`, `ign2` is
  `b2` (R79). -/
  | tpd2 (mid : BitVec 2) (ign1 : BitVec 7) (ign2 : Byte) (p3 : Payload)
deriving DecidableEq, Repr

/-- The row of spec/opcode_table.json a unit belongs to. -/
def Instr.mnemonic : Instr → String
  | .reg .. => "REG"
  | .tun .. => "TUN"
  | .ncs .. => "NCS"
  | .tpd1 .. => "TPD1"
  | .tpd2 .. => "TPD2"

end Sys2Proof
end

