-- ==== Sys2Proof/WellFormed.lean ====
section
/-! DEFINITION. What makes a term of `Instr` an encodable unit (`wf`), a unit DEC accepts (`accepted`, the `wf_mask` pair
of the opcode table), and a unit ENC can emit (`canonical`, the `canon_mask` pair and the collision clause of R84), with
the canonical units in the spec's own notation (30_encoding.md R88). -/

namespace Sys2Proof.Instr

/-- The term has an encoding of its own: payload byte 1 of a TPD unit is not `NCM`, which would make the unit an NCS
(30_encoding.md R75, items 4 and 5). -/
def wf (c : Cfg) : Instr → Bool
  | .reg .. => true
  | .tun .. => true
  | .ncs .. => true
  | .tpd1 _ ign1 _ _ => (ign1 ++ 0#1 : Byte) != c.ncm
  | .tpd2 _ ign1 _ _ => (ign1 ++ 1#1 : Byte) != c.ncm

/-- Every payload byte the unit consumes as data carries the continuation marker (30_encoding.md R85 (b)). -/
def accepted (c : Cfg) : Instr → Bool
  | .reg _ _ p1 p2 p3 => p1.cm == c.cont && p2.cm == c.cont && p3.cm == c.cont
  | .tun _ p1 p2 p3 => p1.cm == c.cont && p2.cm == c.cont && p3.cm == c.cont
  | .ncs .. => true
  | .tpd1 _ _ p2 p3 => p2.cm == c.cont && p3.cm == c.cont
  | .tpd2 _ _ _ p3 => p3.cm == c.cont

/-- The data fields of a noncharacter pattern: `d1[3:0]` all ones, `d2` all ones, `d3[5:1]` all ones, `d3[0]` any
(40_encode.md R111, in terms of the 18 payload bits). -/
def noncharFields (d1 d2 d3 : Sextet) : Bool :=
  d1.extractLsb' 0 4 == 0b1111#4 && d2 == 0b111111#6 && d3.extractLsb' 1 5 == 0b11111#5

/-- ENC can emit the unit at some position of some stream (30_encoding.md R84 and clause (a)). -/
def canonical (c : Cfg) : Instr → Bool
  | .reg mid tag1 p1 p2 p3 =>
    mid == c.leadMid && (tag1 ++ 0#1 : BitVec 2) == c.tagReg && (Instr.reg mid tag1 p1 p2 p3).accepted c &&
      !noncharFields p1.d p2.d p3.d
  | .tun mid p1 p2 p3 =>
    mid == c.leadMid && (Instr.tun mid p1 p2 p3).accepted c && !noncharFields p1.d p2.d p3.d
  | .ncs mid ign2 ign3 _ _ _ => mid == c.leadMid && ign2 == c.mark && ign3 == c.cont ++ 0#2
  | .tpd1 mid ign1 p2 p3 =>
    mid == c.leadMid && (ign1 ++ 0#1 : Byte) == c.skip1 && (Instr.tpd1 mid ign1 p2 p3).accepted c
  | .tpd2 mid ign1 ign2 p3 =>
    mid == c.leadMid && (ign1 ++ 1#1 : Byte) == c.skip2 && ign2 == c.mark && (Instr.tpd2 mid ign1 ign2 p3).accepted c

/-- `REG d1, d2, d3` (30_encoding.md R88). -/
def mkReg (c : Cfg) (d1 d2 d3 : Sextet) : Instr :=
  .reg c.leadMid (c.tagReg.extractLsb' 1 1) ⟨c.cont, d1⟩ ⟨c.cont, d2⟩ ⟨c.cont, d3⟩

/-- `TUN d1, d2, d3` (30_encoding.md R88). -/
def mkTun (c : Cfg) (d1 d2 d3 : Sextet) : Instr :=
  .tun c.leadMid ⟨c.cont, d1⟩ ⟨c.cont, d2⟩ ⟨c.cont, d3⟩

/-- `NCS special, plane, flag` (30_encoding.md R88). -/
def mkNcs (c : Cfg) (special : BitVec 1) (plane : BitVec 2) (flag : BitVec 1) : Instr :=
  .ncs c.leadMid c.mark (c.cont ++ 0#2) special plane flag

/-- `TPD1 d2, d3` (30_encoding.md R88). -/
def mkTpd1 (c : Cfg) (d2 d3 : Sextet) : Instr :=
  .tpd1 c.leadMid (c.skip1.extractLsb' 1 7) ⟨c.cont, d2⟩ ⟨c.cont, d3⟩

/-- `TPD2 d3` (30_encoding.md R88). -/
def mkTpd2 (c : Cfg) (d3 : Sextet) : Instr :=
  .tpd2 c.leadMid (c.skip2.extractLsb' 1 7) c.mark ⟨c.cont, d3⟩

end Sys2Proof.Instr
end

