-- ==== Sys2Proof/Decode.lean ====
section
/-! DEFINITION. The decoder of tofu units, total on any bytes and rejecting by name (41_decode.md R132, R133), the
encoder of `Instr` written from 30_encoding.md R71 to R80, and the opcode table's rows as data (R83). -/

namespace Sys2Proof

/-- Why a byte sequence does not begin with a unit. -/
inductive DecodeError where
  /-- Fewer than 4 bytes are left: how many (60_exceptions.md R161). -/
  | short (left : Nat)
  /-- The lead byte's high nibble is not `LEAD_HI` (60_exceptions.md R162). -/
  | lead
deriving DecidableEq, Repr

/-- The fields of a payload byte (30_encoding.md R72). -/
def payloadOfByte (b : Byte) : Payload := ⟨b.extractLsb' 6 2, b.extractLsb' 0 6⟩

/-- The byte a payload stands for (30_encoding.md R72). -/
def byteOfPayload (p : Payload) : Byte := p.cm ++ p.d

/-- The variant-tag dispatch on a unit whose lead nibble is valid (41_decode.md R133, 30_encoding.md R75): `NCM` is
compared before the skip bit is read. -/
def dispatchUnit (c : Cfg) (b0 b1 b2 b3 : Byte) : Instr :=
  let mid := b0.extractLsb' 2 2
  if b0.extractLsb' 0 1 = 0#1 then
    .reg mid (b0.extractLsb' 1 1) (payloadOfByte b1) (payloadOfByte b2) (payloadOfByte b3)
  else if b0.extractLsb' 1 1 = 0#1 then
    .tun mid (payloadOfByte b1) (payloadOfByte b2) (payloadOfByte b3)
  else if b1 = c.ncm then
    .ncs mid b2 (b3.extractLsb' 4 4) (b3.extractLsb' 3 1) (b3.extractLsb' 1 2) (b3.extractLsb' 0 1)
  else if b1.extractLsb' 0 1 = 0#1 then
    .tpd1 mid (b1.extractLsb' 1 7) (payloadOfByte b2) (payloadOfByte b3)
  else
    .tpd2 mid (b1.extractLsb' 1 7) b2 (payloadOfByte b3)

/-- The first unit of a byte sequence and the bytes after it: lead validation (41_decode.md R132), then dispatch. -/
def decode (c : Cfg) : List Byte → Except DecodeError (Instr × List Byte)
  | b0 :: b1 :: b2 :: b3 :: rest =>
    if b0.extractLsb' 4 4 ≠ c.leadHi then .error .lead else .ok (dispatchUnit c b0 b1 b2 b3, rest)
  | few => .error (.short few.length)

/-- The four bytes of a unit, lead byte first (30_encoding.md R71, R72, R76 to R80; 20_memory.md R53). -/
def encode (c : Cfg) : Instr → List Byte
  | .reg mid tag1 p1 p2 p3 =>
    [c.leadHi ++ mid ++ tag1 ++ 0#1, byteOfPayload p1, byteOfPayload p2, byteOfPayload p3]
  | .tun mid p1 p2 p3 =>
    [c.leadHi ++ mid ++ Cfg.tagTun, byteOfPayload p1, byteOfPayload p2, byteOfPayload p3]
  | .ncs mid ign2 ign3 special plane flag =>
    [c.leadHi ++ mid ++ Cfg.tagRsv, c.ncm, ign2, ign3 ++ special ++ plane ++ flag]
  | .tpd1 mid ign1 p2 p3 =>
    [c.leadHi ++ mid ++ Cfg.tagRsv, ign1 ++ 0#1, byteOfPayload p2, byteOfPayload p3]
  | .tpd2 mid ign1 ign2 p3 =>
    [c.leadHi ++ mid ++ Cfg.tagRsv, ign1 ++ 1#1, ign2, byteOfPayload p3]

/-- The bytes of the word view `W = b0 ‖ b1 ‖ b2 ‖ b3`, stored big-endian (30_encoding.md R73, 20_memory.md R53). -/
def wordBytes (w : Nat) : List Byte :=
  [BitVec.ofNat 8 (w >>> 24), BitVec.ofNat 8 (w >>> 16), BitVec.ofNat 8 (w >>> 8), BitVec.ofNat 8 w]

/-- The bytes of a table row's word of `nbits` bits: spec/opcode_table.json numbers its bits as the word view `W` does,
bit 0 the least significant bit of `W` (log 16); bits above `nbits` are 0. -/
def tableBytes (nbits w : Nat) : List Byte := wordBytes (w % 2 ^ nbits)

/-- The unit the decoder reads from a word of the opcode table, under the decided configuration; no unit is longer than
32 bits. -/
def decodeTableWord (nbits w : Nat) : Option Instr :=
  if 32 < nbits then none
  else
    match decode Cfg.decided (tableBytes nbits w) with
    | .ok (i, _) => some i
    | .error _ => none

/-- A row of the opcode table: the dispatch pair, the pair DEC validates, the pair of what ENC emits
(30_encoding.md R83). -/
structure OpRow where
  mnemonic : String
  mask : BitVec 32
  matchWord : BitVec 32
  wfMask : BitVec 32
  wfMatch : BitVec 32
  canonMask : BitVec 32
  canonMatch : BitVec 32
deriving DecidableEq, Repr

/-- The rows in priority order, with the values under the decided configuration (30_encoding.md R83). -/
def opTable : List OpRow :=
  [⟨"REG", 0xF1000000#32, 0xF0000000#32, 0x00C0C0C0#32, 0x00808080#32, 0xFFC0C0C0#32, 0xF2808080#32⟩,
   ⟨"TUN", 0xF3000000#32, 0xF1000000#32, 0x00C0C0C0#32, 0x00808080#32, 0xFFC0C0C0#32, 0xF1808080#32⟩,
   ⟨"NCS", 0xF3FF0000#32, 0xF3820000#32, 0x00000000#32, 0x00000000#32, 0xFFFFFFF0#32, 0xF3828080#32⟩,
   ⟨"TPD1", 0xF3010000#32, 0xF3000000#32, 0x0000C0C0#32, 0x00008080#32, 0xFFFFC0C0#32, 0xF3808080#32⟩,
   ⟨"TPD2", 0xF3010000#32, 0xF3010000#32, 0x000000C0#32, 0x00000080#32, 0xFFFFFFC0#32, 0xF3818080#32⟩]

/-- The row of a word: the first whose `(W & mask) = match` (30_encoding.md R83). -/
def opRow (w : BitVec 32) : Option OpRow := opTable.find? fun r => w &&& r.mask == r.matchWord

end Sys2Proof
end

