-- ==== Sys2Proof/Machine/State.lean ====
section
/-! DEFINITION. The machine's state as plain data: the two engines ENC and DEC (10_state.md R22, R23) with the host's START
ports (R27), the configuration the hardware is built with (00_scope.md R7), the model's counter of free values, the
reasons the model stops, and the state after power-on reset (70_reset_and_hazards.md R180). -/

namespace Sys2Proof.Machine

/-- The phases of ENC; it has no FAULT phase (10_state.md R22, R26). -/
inductive EncPhase where
  | idle
  | run
  | done
deriving DecidableEq, Repr

/-- The phases of DEC (10_state.md R26). -/
inductive DecPhase where
  | idle
  | run
  | done
  | fault
deriving DecidableEq, Repr

/-- The two engines (10_state.md R21). -/
inductive Engine where
  | enc
  | dec
deriving DecidableEq, Repr

/-- The engine ENC: its START port and its fields (10_state.md R22, R27). -/
structure Enc where
  /-- `START` with `SRC` and `SRC_LEN`: the source the host presents, until the engine takes it (R27; log 11). -/
  start : Option (List Byte)
  /-- The `SRC` of the operation, a snapshot taken at `START` (20_memory.md R65). -/
  src : List Byte
  /-- `ENC.n`, the input length in bytes. -/
  n : Nat
  /-- `ENC.total = 8·n`. -/
  total : Nat
  /-- `ENC.U`, the unit count. -/
  units : Nat
  /-- `ENC.r = total mod 18`. -/
  r : Nat
  /-- `ENC.u`, the index of the unit being built: the engine's program counter (R25). -/
  u : Nat
  /-- `ENC.ip`, the index of the next input byte to pull. -/
  ip : Nat
  /-- `ENC.acc`, the accumulator value. -/
  acc : Nat
  /-- `ENC.nbits`, the number of valid bits in `acc`. -/
  nbits : Nat
  /-- `ENC.dst`, the output produced so far; `DST_LEN` is its length. -/
  dst : List Byte
  /-- `ENC.phase`. -/
  phase : EncPhase
deriving DecidableEq, Repr

/-- The engine DEC: its START port and its fields (10_state.md R23, R27). -/
structure Dec where
  /-- `START` with `SRC` and `SRC_LEN`: the source the host presents, until the engine takes it (R27; log 11). -/
  start : Option (List Byte)
  /-- The `SRC` of the operation, a snapshot taken at `START` (20_memory.md R65). -/
  src : List Byte
  /-- `DEC.m`, the input length in bytes. -/
  m : Nat
  /-- `DEC.pos`, the byte offset of the unit being decoded: the engine's program counter (R25). -/
  pos : Nat
  /-- `DEC.acc`, the shared bit accumulator. -/
  acc : Nat
  /-- `DEC.nbits`, the number of valid bits in `acc`. -/
  nbits : Nat
  /-- `DEC.dst`, the bytes emitted so far; `DST_LEN` is its length. -/
  dst : List Byte
  /-- `DEC.phase`. -/
  phase : DecPhase
  /-- `DEC.err_off`, the offset of the first violation; meaningful only in phase FAULT. -/
  errOff : Nat
deriving DecidableEq, Repr

/-- The whole machine. `cfg` is the hardware's constant, not state (10_state.md R32): it is carried here because `exec` and
`step` take no other argument, and no step changes it (log 1). `draw` is the model's own: how many free values have been
drawn (log 6). -/
structure State where
  cfg : Cfg
  enc : Enc
  dec : Dec
  draw : Nat
deriving DecidableEq, Repr

/-- Faults stop the model. `MalformedInput` is none of them: the spec describes its entry, and DEC goes on in phase
FAULT (60_exceptions.md R166). -/
inductive Fault where
  /-- An engine in phase RUN whose length register exceeds the bytes of its `SRC`: it would read an offset that does not
  exist (20_memory.md R51, R56). Raised by an engine's move in RUN, never by a unit's meaning; no state that a START can
  lead to raises it. Safe (log 18). -/
  | srcRange (e : Engine)
deriving DecidableEq, Repr

/-- Refusals: the model has no move. -/
inductive Refusal where
  /-- An instruction that has no meaning yet, by its mnemonic: raised by no arm of `exec` in this model. Safe. -/
  | notModelled (mnemonic : String)
  /-- The host issued `START` to an engine in phase RUN (70_reset_and_hazards.md R187, U10): raised by that engine's
  move. Safe (log 11). -/
  | startInRun (e : Engine)
deriving DecidableEq, Repr

/-- What a move of the machine answers. -/
abbrev Outcome := Host.Outcome State Fault Refusal

/-- ENC after reset: phase IDLE (70_reset_and_hazards.md R180); the transient fields, which R180 leaves unspecified and no
rule reads, at zero or empty (log 5: DESIGN CHOICE, unsafe). -/
def Enc.reset : Enc :=
  { start := none, src := [], n := 0, total := 0, units := 0, r := 0, u := 0, ip := 0, acc := 0, nbits := 0, dst := [],
    phase := .idle }

/-- DEC after reset: phase IDLE (70_reset_and_hazards.md R180); the transient fields at zero or empty (log 5: DESIGN
CHOICE, unsafe). -/
def Dec.reset : Dec :=
  { start := none, src := [], m := 0, pos := 0, acc := 0, nbits := 0, dst := [], phase := .idle, errOff := 0 }

/-- The machine right after power-on reset (70_reset_and_hazards.md R180): both engines IDLE, no result held, the decided
configuration. -/
def State.reset : State := { cfg := Cfg.decided, enc := Enc.reset, dec := Dec.reset, draw := 0 }

/-- The state with another ENC. -/
def State.setEnc (s : State) (e : Enc) : State := { s with enc := e }

/-- The state with another DEC. -/
def State.setDec (s : State) (d : Dec) : State := { s with dec := d }

/-- The state after `k` free values have been drawn. -/
def State.drew (s : State) (k : Nat) : State := { s with draw := s.draw + k }

end Sys2Proof.Machine
end

