-- ==== Sys2Proof/Machine/Ops.lean ====
section
/-! DEFINITION. The named operations over buffers and engine fields: buffer reads and appends (20_memory.md R50 to R57),
DEC's `consume` (41_decode.md R141, R142), the unit step over a list of consumed bytes (R131), the end of an operation,
and taking the exception `MalformedInput` (60_exceptions.md R166). -/

namespace Sys2Proof.Machine

/-! ### Buffers -/

/-- The byte of a buffer at an offset, if the buffer has one there (20_memory.md R51). -/
def Buffer.read (b : List Byte) (off : Nat) : Option Byte := b[off]?

/-- `DstAppend(b)`: write `b` at offset `len(dst)` and lengthen the buffer by 1 (20_memory.md R57). -/
def dstAppend (dst : List Byte) (b : Byte) : List Byte := dst ++ [b]

/-- The cells of a buffer, offset by offset (20_memory.md R51). -/
def Buffer.cells (b : List Byte) : List Host.Cell := b.zipIdx.map fun p => (p.2, p.1)

/-- The canonical form of a list of cells: offsets strictly rising. An unlisted offset does not exist, so no entry equals
what an unlisted offset reads as (log 13). -/
abbrev Memory.wf (m : List Host.Cell) : Prop := m.Pairwise fun a b => a.1 < b.1

/-! ### Consumption of a payload byte -/

/-- Feed and emit (41_decode.md R142): append 6 bits at the low end of the accumulator; when it then holds 8 or more bits,
emit the top 8 and remove them. -/
def decFeed (v : Sextet) (d : Dec) : Dec :=
  let acc := (d.acc <<< 6) ||| v.toNat
  let nbits := d.nbits + 6
  if 8 ≤ nbits then
    { d with
      dst := dstAppend d.dst (BitVec.ofNat 8 ((acc >>> (nbits - 8)) &&& 0xFF))
      nbits := nbits - 8
      acc := acc &&& ((1 <<< (nbits - 8)) - 1) }
  else { d with acc := acc, nbits := nbits }

/-- `consume(b, off)` (41_decode.md R141, R142): validate the continuation marker, answering the offset where it is
missing, then feed the data bits. -/
def decConsume (c : Cfg) (p : Payload) (off : Nat) (d : Dec) : Except Nat Dec :=
  if p.cm ≠ c.cont then .error off else .ok (decFeed p.d d)

/-- Consume payload positions `(j, bj)` of the unit at `pos` in order, to the first violation (41_decode.md R141). -/
def decConsumeAll (c : Cfg) (pos : Nat) : List (Nat × Payload) → Dec → Except Nat Dec
  | [], d => .ok d
  | (j, p) :: rest, d =>
    match decConsume c p (pos + j) d with
    | .error off => .error off
    | .ok d' => decConsumeAll c pos rest d'

/-- `DEC.pos <- DEC.pos + 4` (41_decode.md R131, 10_state.md R25). -/
def decAdvance (d : Dec) : Dec := { d with pos := d.pos + 4 }

/-! ### The end of an operation -/

/-- How many free values the end of a DEC operation draws. -/
def decReleaseDraws : Nat := 5

/-- DEC's transient fields after the operation: they exist only during it (10_state.md R21), and between operations they
hold any value (U14, log 6). `start`, `dst`, `phase` and `errOff` are as they were. -/
def decRelease (k : Nat) (d : Dec) : Dec :=
  { d with
    src := Config.freeBytes k
    m := Config.freeNat k
    pos := Config.freeNat (k + 1)
    acc := Config.freeNat (k + 2)
    nbits := Config.freeNat (k + 3) }

/-- Taking the exception `MalformedInput(off)` (60_exceptions.md R166): `err_off` holds the offset, the phase is FAULT,
the operation is over and delivers no output, the destination's contents being unspecified (U6, log 7). Nothing else is
saved: there is no saved program counter, cause, mode or vector, and no return from it (R167). -/
def raiseMalformed (off : Nat) (s : State) : State :=
  (s.setDec
    { decRelease s.draw s.dec with
      dst := Config.freeBytes (s.draw + 1)
      phase := .fault
      errOff := off }).drew decReleaseDraws

/-- The end of the unit loop, when `pos + 4 > m` (41_decode.md R131): at `pos = m` the operation is DONE, its result is
`dst`, and the bits left in the accumulator are discarded unchecked (R143); otherwise the trailing incomplete unit is a
violation at its start (R144). -/
def decFinish (s : State) : State :=
  if s.dec.pos = s.dec.m then
    (s.setDec { decRelease s.draw s.dec with phase := .done }).drew decReleaseDraws
  else raiseMalformed s.dec.pos s

/-! ### The unit step of DEC -/

/-- A unit step that consumes the given positions (41_decode.md R131, R141): either all are consumed and `pos` moves to
the next unit, or the first violation raises `MalformedInput`. -/
def decUnit (consumed : List (Nat × Payload)) (s : State) : Outcome :=
  match decConsumeAll s.cfg s.dec.pos consumed s.dec with
  | .error off => .next (raiseMalformed off s)
  | .ok d => .next (s.setDec (decAdvance d))

end Sys2Proof.Machine
end

