-- ==== Sys2Proof/Machine/Operands.lean ====
section
/-! DEFINITION. The operand forms of the five unit variants: which payload positions each consumes as data
(30_encoding.md R76 to R81), the reconstruction of a substitute's bytes (R82), and the value `classify` gives a unit
(41_decode.md R147). -/

namespace Sys2Proof.Machine

/-- REG and TUN consume payload bytes 1, 2, 3 (41_decode.md R134, R135). -/
def allOperands (p1 p2 p3 : Payload) : List (Nat × Payload) := [(1, p1), (2, p2), (3, p3)]

/-- With skip 1, payload bytes 2 and 3 are consumed (41_decode.md R139). -/
def skip1Operands (p2 p3 : Payload) : List (Nat × Payload) := [(2, p2), (3, p3)]

/-- With skip 2, payload byte 3 is consumed (41_decode.md R140). -/
def skip2Operands (p3 : Payload) : List (Nat × Payload) := [(3, p3)]

/-- `q1 = C | (plane << 4) | 0b1111` (30_encoding.md R82). -/
def ncsByte1 (c : Cfg) (plane : BitVec 2) : Byte := c.mark ||| (plane.setWidth 8 <<< 4) ||| 0x0F#8

/-- `q2 = C | 0b111111` (30_encoding.md R82). -/
def ncsByte2 (c : Cfg) : Byte := c.mark ||| 0x3F#8

/-- `q3 = C | 0b111110 | noncharacterFlag` (30_encoding.md R82). -/
def ncsByte3 (c : Cfg) (flag : BitVec 1) : Byte := c.mark ||| 0x3E#8 ||| flag.setWidth 8

/-- NCS consumes the three reconstructed bytes, under positions 1, 2, 3 (41_decode.md R138). -/
def ncsOperands (c : Cfg) (plane : BitVec 2) (flag : BitVec 1) : List (Nat × Payload) :=
  allOperands (payloadOfByte (ncsByte1 c plane)) (payloadOfByte (ncsByte2 c)) (payloadOfByte (ncsByte3 c flag))

/-- The original tag of a substitute: `TAG_TUN` if `special = 1`, `TAG_REG` if `special = 0` (30_encoding.md R82). It has
no effect on extraction (41_decode.md R138). -/
def ncsOrigTag (c : Cfg) (special : BitVec 1) : BitVec 2 := if special = 1#1 then Cfg.tagTun else c.tagReg

/-- The payload positions a unit consumes as data (30_encoding.md R81, R82). -/
def consumedOperands (c : Cfg) : Instr → List (Nat × Payload)
  | .reg _ _ p1 p2 p3 => allOperands p1 p2 p3
  | .tun _ p1 p2 p3 => allOperands p1 p2 p3
  | .ncs _ _ _ _ plane flag => ncsOperands c plane flag
  | .tpd1 _ _ p2 p3 => skip1Operands p2 p3
  | .tpd2 _ _ _ p3 => skip2Operands p3

/-- The variant of a unit, with the fields each variant needs only (41_decode.md R147). For a unit with an unmarked consumed
byte see `classify`. -/
inductive Variant where
  | regular (d1 d2 d3 : Sextet)
  | terminalUnpadded (d1 d2 d3 : Sextet)
  | terminalPadded1 (d2 d3 : Sextet)
  | terminalPadded2 (d3 : Sextet)
  | noncharacterSubstitute (special : BitVec 1) (plane : BitVec 2) (flag : BitVec 1)
deriving DecidableEq, Repr

/-- `classify` (41_decode.md R147). The rule defines the data fields only if the consumed bytes pass R141; for a rejected
unit they are the low 6 bits of its payload bytes here: DESIGN CHOICE, unsafe (log 22). `exec` does not use it. -/
def classify : Instr → Variant
  | .reg _ _ p1 p2 p3 => .regular p1.d p2.d p3.d
  | .tun _ p1 p2 p3 => .terminalUnpadded p1.d p2.d p3.d
  | .ncs _ _ _ special plane flag => .noncharacterSubstitute special plane flag
  | .tpd1 _ _ p2 p3 => .terminalPadded1 p2.d p3.d
  | .tpd2 _ _ _ p3 => .terminalPadded2 p3.d

/-- The lead tag of the unit a variant stands for: that of the replaced unit for a substitute (30_encoding.md R82,
41_decode.md R147). The spec gives an original tag to NCS units only. For the other variants the value here is the tag ENC
emits for them, DESIGN CHOICE, unsafe (log 23): `TAG_REG` for every REG, also for one whose own tag is the other value that
decodes as REG. -/
def Variant.origTag (c : Cfg) : Variant → BitVec 2
  | .regular .. => c.tagReg
  | .terminalUnpadded .. => Cfg.tagTun
  | .terminalPadded1 .. => Cfg.tagRsv
  | .terminalPadded2 .. => Cfg.tagRsv
  | .noncharacterSubstitute special _ _ => ncsOrigTag c special

end Sys2Proof.Machine
end

