-- ==== Sys2Proof/Machine/Units.lean ====
section
/-! DEFINITION. The meanings of the five unit variants, DEC's instructions (41_decode.md R134 to R140). Each is a unit
step over the payload positions the variant consumes; a violation takes the exception `MalformedInput`. -/

namespace Sys2Proof.Machine

/-- REG (41_decode.md R134): feeds payload bytes 1, 2, 3. -/
def execReg (p1 p2 p3 : Payload) (s : State) : Outcome := decUnit (allOperands p1 p2 p3) s

/-- TUN (41_decode.md R135): as REG; being terminal does not stop the decoder (R150). -/
def execTun (p1 p2 p3 : Payload) (s : State) : Outcome := decUnit (allOperands p1 p2 p3) s

/-- NCS (41_decode.md R138): feeds the three reconstructed bytes. `special` only gives the original tag, which extraction
does not use (`ncsOrigTag`). -/
def execNcs (plane : BitVec 2) (flag : BitVec 1) (s : State) : Outcome := decUnit (ncsOperands s.cfg plane flag) s

/-- TPD1 (41_decode.md R139): skip 1, feeds payload bytes 2 and 3. -/
def execTpd1 (p2 p3 : Payload) (s : State) : Outcome := decUnit (skip1Operands p2 p3) s

/-- TPD2 (41_decode.md R140): skip 2, feeds payload byte 3. -/
def execTpd2 (p3 : Payload) (s : State) : Outcome := decUnit (skip2Operands p3) s

end Sys2Proof.Machine
end

