-- ==== Sys2Proof/Machine/Dispatch.lean ====
section
/-! DEFINITION. `exec`: one arm per unit variant (41_decode.md R133), each a direct call of its meaning. -/

namespace Sys2Proof.Machine

-- DEC's unit step on a unit whose lead byte is valid
def exec (i : Instr) (s : State) : Host.Outcome State Fault Refusal :=
  match i with
  | .reg _ _ p1 p2 p3 => Sys2Proof.Machine.execReg p1 p2 p3 s
  | .tun _ p1 p2 p3 => Sys2Proof.Machine.execTun p1 p2 p3 s
  | .ncs _ _ _ _ plane flag => Sys2Proof.Machine.execNcs plane flag s
  | .tpd1 _ _ p2 p3 => Sys2Proof.Machine.execTpd1 p2 p3 s
  | .tpd2 _ _ _ p3 => Sys2Proof.Machine.execTpd2 p3 s

end Sys2Proof.Machine
end

