-- ==== Sys2Proof/Machine/Encoder.lean ====
section
/-! DEFINITION. The engine ENC (40_encode.md): slot steps that regroup bytes into 6-bit fields (R103, R104), tagging and
relocation of a unit (R106 to R110), the collision test and substitution (R111, R112), emission (R114), the unit step
(R102, R119) and the end of the operation (R115). -/

namespace Sys2Proof.Machine

/-- `SrcRead(i)` in ENC, the overrun rule (20_memory.md R54): past the end it is `0x00`, and no access is made. -/
def srcRead (src : List Byte) (n i : Nat) : Byte := if i < n then src.getD i 0#8 else 0#8

/-- The unit count `U` of an input of `n` bytes, with the empty-input parameter (40_encode.md R101). -/
def unitCount (c : Cfg) (n : Nat) : Nat := if n = 0 then c.emptyUnits.val else (8 * n + 17) / 18

/-- The pull rule (40_encode.md R103): with fewer than 6 bits held, the next input byte enters at the low end. -/
def encPull (e : Enc) : Enc :=
  if e.nbits < 6 then
    { e with
      ip := e.ip + 1
      acc := (e.acc <<< 8) ||| (srcRead e.src e.n e.ip).toNat
      nbits := e.nbits + 8 }
  else e

/-- The 6 oldest bits held (40_encode.md R104). -/
def encOldest (e : Enc) : Sextet := BitVec.ofNat 6 ((e.acc >>> (e.nbits - 6)) &&& 0x3F)

/-- Those 6 bits leave the accumulator (40_encode.md R104). -/
def encDrop (e : Enc) : Enc :=
  { e with nbits := e.nbits - 6, acc := e.acc &&& ((1 <<< (e.nbits - 6)) - 1) }

/-- A slot step (40_encode.md R103, R104): the field extracted, and the engine after it. -/
def encSlot (e : Enc) : Sextet × Enc := (encOldest (encPull e), encDrop (encPull e))

/-- A natural payload byte `C | v` (40_encode.md R104; "masked with" is an OR, 90_conflicts.md C6). -/
def naturalByte (c : Cfg) (v : Sextet) : Byte := c.mark ||| v.setWidth 8

/-- A unit under construction: its tag and payload bytes (10_state.md R33). -/
structure Draft where
  tag : BitVec 2
  p1 : Byte
  p2 : Byte
  p3 : Byte
deriving DecidableEq, Repr

/-- REG formation, for every non-final unit (40_encode.md R106). -/
def formReg (c : Cfg) (p1 p2 p3 : Byte) : Draft := ⟨c.tagReg, p1, p2, p3⟩

/-- TUN formation (40_encode.md R108). -/
def formTun (p1 p2 p3 : Byte) : Draft := ⟨Cfg.tagTun, p1, p2, p3⟩

/-- TPD1 relocation with its skip marker (40_encode.md R109): the natural byte 3, all padding, is dropped. -/
def formTpd1 (c : Cfg) (p1 p2 : Byte) : Draft := ⟨Cfg.tagRsv, c.skip1, p1, p2⟩

/-- TPD2 relocation with its skip marker (40_encode.md R110): the natural bytes 2 and 3, all padding, are dropped. -/
def formTpd2 (c : Cfg) (p1 : Byte) : Draft := ⟨Cfg.tagRsv, c.skip2, c.mark, p1⟩

/-- Classification of the final unit by the remainder (40_encode.md R107). -/
def formFinal (c : Cfg) (r : Nat) (p1 p2 p3 : Byte) : Draft :=
  if r = 0 ∨ 12 ≤ r then formTun p1 p2 p3
  else if 6 ≤ r then formTpd1 c p1 p2
  else formTpd2 c p1

/-- Tagging and relocation of a unit (40_encode.md R106 to R110). -/
def formUnit (c : Cfg) (final : Bool) (r : Nat) (p1 p2 p3 : Byte) : Draft :=
  if final then formFinal c r p1 p2 p3 else formReg c p1 p2 p3

/-- The collision test on the pre-collision unit (40_encode.md R111): it looks at neither the tag nor `p1[7:4]`. -/
def collides (c : Cfg) (p1 p2 p3 : Byte) : Bool :=
  p2 == c.markAll && (p3 == c.markAll || p3 == c.markAll1) && p1.extractLsb' 0 4 == 0b1111#4

/-- The NCS rewrite (40_encode.md R112): all captures are made before any overwrite. -/
def substituteUnit (c : Cfg) (d : Draft) : Draft :=
  let special := d.tag.extractLsb' 0 1
  let plane := d.p1.extractLsb' 4 2
  let flag := d.p3.extractLsb' 0 1
  ⟨Cfg.tagRsv, c.ncm, c.mark,
    c.mark ||| (special.setWidth 8 <<< 3) ||| (plane.setWidth 8 <<< 1) ||| flag.setWidth 8⟩

/-- The unit as it is emitted: rewritten if it collides (40_encode.md R111, R112). -/
def settleUnit (c : Cfg) (d : Draft) : Draft := if collides c d.p1 d.p2 d.p3 then substituteUnit c d else d

/-- The four bytes of a unit in emission order (40_encode.md R114). -/
def draftBytes (c : Cfg) (d : Draft) : List Byte := [c.lead d.tag, d.p1, d.p2, d.p3]

/-- The bytes of a unit from its natural fields (40_encode.md R104, R106 to R114). -/
def emitUnit (c : Cfg) (final : Bool) (r : Nat) (v1 v2 v3 : Sextet) : List Byte :=
  draftBytes c (settleUnit c (formUnit c final r (naturalByte c v1) (naturalByte c v2) (naturalByte c v3)))

/-- Append the bytes of a unit and count it (40_encode.md R114, R102 (e)). -/
def encEmit (bytes : List Byte) (e : Enc) : Enc := { e with dst := bytes.foldl dstAppend e.dst, u := e.u + 1 }

/-- The unit step of ENC (40_encode.md R102, R119). -/
def encUnitStep (c : Cfg) (e : Enc) : Enc :=
  let s1 := encSlot e
  let s2 := encSlot s1.2
  let s3 := encSlot s2.2
  encEmit (emitUnit c (e.u + 1 == e.units) e.r s1.1 s2.1 s3.1) s3.2

/-- How many free values the end of an ENC operation draws. -/
def encReleaseDraws : Nat := 8

/-- ENC's transient fields after the operation: they exist only during it (10_state.md R21), and between operations they
hold any value (U14, log 6). `start`, `dst` and `phase` are as they were. -/
def encRelease (k : Nat) (e : Enc) : Enc :=
  { e with
    src := Config.freeBytes k
    n := Config.freeNat k
    total := Config.freeNat (k + 1)
    units := Config.freeNat (k + 2)
    r := Config.freeNat (k + 3)
    u := Config.freeNat (k + 4)
    ip := Config.freeNat (k + 5)
    acc := Config.freeNat (k + 6)
    nbits := Config.freeNat (k + 7) }

/-- The end of ENCODE, when `u = U` (40_encode.md R115): the phase is DONE, the result is `dst`, and the bits left in the
accumulator are discarded. -/
def encFinish (s : State) : State :=
  (s.setEnc { encRelease s.draw s.enc with phase := .done }).drew encReleaseDraws

end Sys2Proof.Machine
end

