-- ==== Sys2Proof/Machine/Start.lean ====
section
/-! DEFINITION. The host's side of the interface (10_state.md R27): presenting a START, and what START does to an engine
(R31, 70_reset_and_hazards.md R181). -/

namespace Sys2Proof.Machine

/-- The host presents a source and issues START to an engine (10_state.md R27). The engine takes it at the next step.
A START presented again before that step replaces the one that stands: DESIGN CHOICE, unsafe (log 20), for the spec has no
interval between START and RUN. Until that step the host's reads show the phase and result the engine had: DESIGN CHOICE,
unsafe (log 21). -/
def presentStart (e : Engine) (src : List Byte) (s : State) : State :=
  match e with
  | .enc => s.setEnc { s.enc with start := some src }
  | .dec => s.setDec { s.dec with start := some src }

/-- Start-of-operation values of ENC (10_state.md R31), whatever it held before. -/
def encStarted (c : Cfg) (src : List Byte) : Enc :=
  { start := none
    src := src
    n := src.length
    total := 8 * src.length
    units := unitCount c src.length
    r := 8 * src.length % 18
    u := 0
    ip := 0
    acc := 0
    nbits := 0
    dst := []
    phase := .run }

/-- Start-of-operation values of DEC (10_state.md R31), whatever it held before; `err_off` is unspecified (log 6). -/
def decStarted (k : Nat) (src : List Byte) : Dec :=
  { start := none
    src := src
    m := src.length
    pos := 0
    acc := 0
    nbits := 0
    dst := []
    phase := .run
    errOff := Config.freeNat k }

/-- START of ENC (10_state.md R31). -/
def startEnc (src : List Byte) (s : State) : State := s.setEnc (encStarted s.cfg src)

/-- START of DEC (10_state.md R31). -/
def startDec (src : List Byte) (s : State) : State := (s.setDec (decStarted s.draw src)).drew 1

end Sys2Proof.Machine
end

