-- ==== Sys2Proof/Machine/Moves.lean ====
section
/-! DEFINITION. One move of each engine: taking a presented START, one unit step in phase RUN, the end of the operation,
or nothing when the engine holds no operation (10_state.md R26, 40_encode.md R102, 41_decode.md R131). -/

namespace Sys2Proof.Machine

/-- One pass of the unit loop of DEC in phase RUN (41_decode.md R131): fetch the complete unit at `pos`, fail on its lead
byte (R132), or execute it; with no complete unit left, end the operation (R143, R144). -/
def decRun (s : State) : Outcome :=
  if s.dec.src.length < s.dec.m then .fault (.srcRange .dec)
  else if s.dec.pos + 4 ≤ s.dec.m then
    match decode s.cfg (s.dec.src.drop s.dec.pos) with
    | .ok (i, _) => exec i s
    | .error _ => .next (raiseMalformed s.dec.pos s)
  else .next (decFinish s)

/-- One move of DEC. A START is legal in every phase but RUN (60_exceptions.md R170, 70_reset_and_hazards.md R187);
without one, an engine that holds no running operation stays as it is. -/
def decMove (s : State) : Outcome :=
  match s.dec.start, s.dec.phase with
  | some _, .run => .refused (.startInRun .dec)
  | some src, _ => .next (startDec src s)
  | none, .run => decRun s
  | none, _ => .next s

/-- One pass of the unit loop of ENC in phase RUN (40_encode.md R102): one unit step while `u < U`, then the end (R115). -/
def encRun (s : State) : Outcome :=
  if s.enc.src.length < s.enc.n then .fault (.srcRange .enc)
  else if s.enc.u < s.enc.units then .next (s.setEnc (encUnitStep s.cfg s.enc))
  else .next (encFinish s)

/-- One move of ENC. -/
def encMove (s : State) : Outcome :=
  match s.enc.start, s.enc.phase with
  | some _, .run => .refused (.startInRun .enc)
  | some src, _ => .next (startEnc src s)
  | none, .run => encRun s
  | none, _ => .next s

/-- One outcome after another: the second move is made only from a next state. -/
def andThen (o : Outcome) (f : State → Outcome) : Outcome :=
  match o with
  | .next s => f s
  | .fault r => .fault r
  | .refused r => .refused r

/-- A DEC in phase RUN with the four given bytes at `pos` and no START presented. Where `SRC` is too short, the bytes
before them are 0. -/
def decWithUnit (unit : List Byte) (d : Dec) : Dec :=
  let src := d.src.take d.pos ++ List.replicate (d.pos - d.src.length) 0#8 ++ unit ++ d.src.drop (d.pos + 4)
  { d with start := none, src := src, m := src.length, phase := .run }

/-- An ENC that a presented START does not stop: the START is withdrawn if the engine is in RUN. -/
def encUnblocked (e : Enc) : Enc := if e.phase = .run then { e with start := none } else e

end Sys2Proof.Machine
end

