-- ==== Sys2Proof/Machine/Step.lean ====
section
/-! DEFINITION. The step of the machine: a move of DEC, then a move of ENC. The engines share nothing (10_state.md R21) and
may run at the same time (60_exceptions.md R171); see log 10. -/

namespace Sys2Proof.Machine

/-- One step of the machine. -/
def step (s : State) : Host.Outcome State Fault Refusal := andThen (decMove s) encMove

/-- The state in which DEC's next unit step runs the unit with the table's word `w` of `nbits` bits: it stands in for the
host's START with a source that has the unit at `DEC.pos` (log 16). -/
def State.withFetchWord (s : State) (nbits w : Nat) : State :=
  (s.setDec (decWithUnit (tableBytes nbits w) s.dec)).setEnc (encUnblocked s.enc)

end Sys2Proof.Machine
end

