-- ==== Sys2Proof/Machine/Flags.lean ====
section
/-! DEFINITION. The only flag-like state is each engine's phase (10_state.md R26). This file is what the host reads of it
and of the results (R27): `STATUS`, `DST` and `DST_LEN` (valid only in phase DONE), `ERR_OFFSET` (valid only in phase
FAULT). A read that is not valid gives `none`.
The reads do not look at the START ports: between `presentStart` and the move that takes the START they show the phase and
the result of before (log 21: DESIGN CHOICE, unsafe). -/

namespace Sys2Proof.Machine

/-- The result of a DECODE operation (60_exceptions.md R166). -/
inductive DecResult where
  | ok (bytes : List Byte)
  | malformed (off : Nat)
deriving DecidableEq, Repr

/-- `STATUS` of ENC; a START that still stands at the port does not show in it (log 21). -/
def encStatus (s : State) : EncPhase := s.enc.phase

/-- `STATUS` of DEC; a START that still stands at the port does not show in it (log 21). -/
def decStatus (s : State) : DecPhase := s.dec.phase

/-- `DST` of ENC; valid until a START that stands at the port is taken (log 21). -/
def encDst (s : State) : Option (List Byte) :=
  match s.enc.phase with
  | .done => some s.enc.dst
  | .idle => none
  | .run => none

/-- `DST` of DEC; valid until a START that stands at the port is taken (log 21). -/
def decDst (s : State) : Option (List Byte) :=
  match s.dec.phase with
  | .done => some s.dec.dst
  | .idle => none
  | .run => none
  | .fault => none

/-- `DST_LEN` of ENC. -/
def encDstLen (s : State) : Option Nat := (encDst s).map List.length

/-- `DST_LEN` of DEC. -/
def decDstLen (s : State) : Option Nat := (decDst s).map List.length

/-- `ERR_OFFSET` of DEC; valid until a START that stands at the port is taken (log 21). -/
def decErrOffset (s : State) : Option Nat :=
  match s.dec.phase with
  | .fault => some s.dec.errOff
  | .idle => none
  | .run => none
  | .done => none

/-- The result of the last DECODE operation, if it has one: `Ok(bytes)` or `MalformedInput(off)`; held until a
START that stands at the port is taken (log 21). -/
def decResult (s : State) : Option DecResult :=
  match s.dec.phase with
  | .done => some (.ok s.dec.dst)
  | .fault => some (.malformed s.dec.errOff)
  | .idle => none
  | .run => none

end Sys2Proof.Machine
end

