-- ==== Sys2Proof/Machine/Codec.lean ====
section
/-! DEFINITION. The two operations in one piece, apart from the step machine: DECODE as the pass of 41_decode.md R151 over
the raw bytes, and ENCODE by the closed form of the natural payload (40_encode.md R105). The spec allows a model to take
a whole operation as one atomic transition (20_memory.md R62); the obligations say that the step machine agrees. -/

namespace Sys2Proof.Machine

/-! ### DECODE -/

/-- The accumulator pair and the output of a DECODE pass (41_decode.md R151). -/
structure Pass where
  acc : Nat
  nbits : Nat
  dst : List Byte
deriving DecidableEq, Repr

/-- The inner loop's body on one byte whose marker is right (41_decode.md R151). -/
def passByte (b : Byte) (p : Pass) : Pass :=
  let acc := p.acc * 64 + b.toNat % 64
  let nbits := p.nbits + 6
  if 8 ≤ nbits then ⟨acc % 2 ^ (nbits - 8), nbits - 8, p.dst ++ [BitVec.ofNat 8 (acc / 2 ^ (nbits - 8))]⟩
  else ⟨acc, nbits, p.dst⟩

/-- The inner loop over the list `L` of positions and bytes (41_decode.md R151). -/
def passBytes (c : Cfg) (pos : Nat) : List (Nat × Byte) → Pass → Except Nat Pass
  | [], p => .ok p
  | (j, b) :: rest, p =>
    if b >>> 6 ≠ c.cont.setWidth 8 then .error (pos + j) else passBytes c pos rest (passByte b p)

/-- The list `L` of a unit (41_decode.md R151): its payload bytes, those after the skip, or the reconstructed ones. -/
def passList (c : Cfg) (b0 b1 b2 b3 : Byte) : List (Nat × Byte) :=
  if b0 &&& 3#8 = 3#8 then
    if b1 = c.ncm then
      [(1, c.mark ||| (((b3 >>> 1) &&& 3#8) <<< 4) ||| 0x0F#8),
       (2, c.mark ||| 0x3F#8),
       (3, c.mark ||| 0x3E#8 ||| (b3 &&& 1#8))]
    else [(1, b1), (2, b2), (3, b3)].filter fun e => 1 + (b1 &&& 1#8).toNat < e.1
  else [(1, b1), (2, b2), (3, b3)]

/-- The outer loop and the end check (41_decode.md R151), on the bytes of `SRC` from `pos` on. -/
def passUnits (c : Cfg) : List Byte → Nat → Pass → DecResult
  | b0 :: b1 :: b2 :: b3 :: rest, pos, p =>
    if b0 >>> 4 ≠ c.leadHi.setWidth 8 then .malformed pos
    else
      match passBytes c pos (passList c b0 b1 b2 b3) p with
      | .error off => .malformed off
      | .ok p' => passUnits c rest (pos + 4) p'
  | [], _, p => .ok p.dst
  | _, pos, _ => .malformed pos

/-- `decode(tofuBytes)`: the whole DECODE operation (41_decode.md R151). -/
def decodeAll (c : Cfg) (src : List Byte) : DecResult := passUnits c src 0 ⟨0, 0, []⟩

/-! ### ENCODE -/

/-- The natural data field of slot `s` (40_encode.md R105): with `k = 6s`, `B = k div 8`, `o = k mod 8`,
`v = (((SrcRead(B) << 8) | SrcRead(B+1)) >> (10 - o)) & 0x3F`. -/
def naturalField (src : List Byte) (s : Nat) : Sextet :=
  let pair := (srcRead src src.length (6 * s / 8)).toNat * 256 + (srcRead src src.length (6 * s / 8 + 1)).toNat
  BitVec.ofNat 6 (pair / 2 ^ (10 - 6 * s % 8) % 64)

/-- Unit `u` of the encoding of `src` (40_encode.md R105 to R114). -/
def encodedUnit (c : Cfg) (src : List Byte) (u : Nat) : List Byte :=
  emitUnit c (u + 1 == unitCount c src.length) (8 * src.length % 18)
    (naturalField src (3 * u)) (naturalField src (3 * u + 1)) (naturalField src (3 * u + 2))

/-- `encode(bytes)`: the whole ENCODE operation, its units in order (40_encode.md R102, R114). -/
def encodeAll (c : Cfg) (src : List Byte) : List Byte :=
  (List.range (unitCount c src.length)).flatMap (encodedUnit c src)

end Sys2Proof.Machine
end

