-- ==== Sys2Proof/Safety.lean ====
section
/-! DEFINITION. The terms the claims are stated in: the bit-stream view (00_scope.md R12), the invariant of a run
(10_state.md R22 to R25), the violation set of a source (60_exceptions.md R164), canonical streams (30_encoding.md R84),
the reading of a unit as a UTF-8 sequence (R90), and runs of one operation on the step machine. -/

namespace Sys2Proof.Machine

/-! ### The bit-stream view -/

/-- The low `w` bits of a natural, most significant first. -/
def bitsOf (w v : Nat) : List Bool := (List.range w).map fun i => v.testBit (w - 1 - i)

/-- The bit stream of a byte sequence, most significant bit first within each byte (00_scope.md R12). -/
def bitStream (bytes : List Byte) : List Bool := bytes.flatMap fun b => bitsOf 8 b.toNat

/-- The 6 bits of a data field in stream order (20_memory.md R52). -/
def fieldBits (d : Sextet) : List Bool := bitsOf 6 d.toNat

/-- The bits DEC has been fed: those of the emitted bytes, then those still held (41_decode.md R142). -/
def decBits (d : Dec) : List Bool := bitStream d.dst ++ bitsOf d.nbits d.acc

/-- The payload bit string a variant feeds (41_decode.md R147). A rejected unit feeds no such string: there it is the string
of the fields `classify` gives (log 22, the model's choice). -/
def payloadBits : Variant → List Bool
  | .regular d1 d2 d3 => fieldBits d1 ++ fieldBits d2 ++ fieldBits d3
  | .terminalUnpadded d1 d2 d3 => fieldBits d1 ++ fieldBits d2 ++ fieldBits d3
  | .terminalPadded1 d2 d3 => fieldBits d2 ++ fieldBits d3
  | .terminalPadded2 d3 => fieldBits d3
  | .noncharacterSubstitute _ plane flag =>
    bitsOf 2 plane.toNat ++ List.replicate 4 true ++ List.replicate 6 true ++ List.replicate 5 true ++
      bitsOf 1 flag.toNat

/-! ### The invariant of a run -/

/-- What holds of ENC while an operation runs (10_state.md R22, R24, R31, 20_memory.md R55), and of its result. -/
abbrev EncInv (c : Cfg) (e : Enc) : Prop :=
  (e.phase = .run →
    e.n = e.src.length ∧ e.total = 8 * e.n ∧ e.units = unitCount c e.n ∧ e.r = e.total % 18 ∧ e.u ≤ e.units ∧
      e.ip = (9 * e.u + 3) / 4 ∧ e.nbits + 18 * e.u = 8 * e.ip ∧ e.acc < 2 ^ e.nbits ∧ e.dst.length = 4 * e.u) ∧
  (e.phase = .done → e.dst.length % 4 = 0)

/-- What holds of DEC while an operation runs (10_state.md R23, R24, R25, 41_decode.md R148). -/
abbrev DecInv (d : Dec) : Prop :=
  d.phase = .run →
    d.m = d.src.length ∧ d.pos % 4 = 0 ∧ d.pos ≤ d.m ∧ d.nbits ≤ 7 ∧ d.acc < 2 ^ d.nbits ∧
      (8 * d.dst.length + d.nbits) % 6 = 0 ∧ 8 * d.dst.length + d.nbits ≤ 18 * (d.pos / 4)

/-- The invariant of the machine. -/
abbrev Inv (s : State) : Prop := EncInv s.cfg s.enc ∧ DecInv s.dec

/-- A state in which the host may START an ENCODE: the invariant holds, ENC is not in RUN, and no START waits at DEC.
A START that already stands at ENC is let in; the one the host then presents replaces it (log 20, the model's choice). -/
abbrev ReadyEnc (s : State) : Prop := Inv s ∧ s.dec.start = none ∧ s.enc.phase ≠ .run

/-- A state in which the host may START a DECODE: the invariant holds, DEC is not in RUN, and no START waits at ENC.
A START that already stands at DEC is let in; the one the host then presents replaces it (log 20, the model's choice). -/
abbrev ReadyDec (s : State) : Prop := Inv s ∧ s.enc.start = none ∧ s.dec.phase ≠ .run

/-! ### What one unit step does -/

/-- `t` is `s` with `bits` fed and the unit at `pos` done (41_decode.md R131, R142). With fewer than 8 bits held and no
bit above them, the fed bits fix `dst`, `acc` and `nbits`. -/
structure Fed (s t : State) (bits : List Bool) : Prop where
  stream : decBits t.dec = decBits s.dec ++ bits
  held : t.dec.nbits ≤ 7
  bounded : t.dec.acc < 2 ^ t.dec.nbits
  advanced : t.dec.pos = s.dec.pos + 4
  running : t.dec.phase = s.dec.phase

/-- `t` is `s` after `MalformedInput(off)` (60_exceptions.md R166): phase FAULT, the offset reported, no output
delivered, nothing outside DEC changed. -/
structure Malformed (s t : State) (off : Nat) : Prop where
  phase : t.dec.phase = .fault
  offset : decErrOffset t = some off
  result : decResult t = some (.malformed off)
  noOutput : decDst t = none
  noLength : decDstLen t = none
  start : t.dec.start = s.dec.start
  enc : t.enc = s.enc
  cfg : t.cfg = s.cfg

/-! ### Runs of one operation -/

/-- The steps of an ENCODE of `src`: the START, the unit steps, the end (70_reset_and_hazards.md R189). -/
def encodeSteps (c : Cfg) (src : List Byte) : Nat := unitCount c src.length + 2

/-- The most steps of a DECODE of `src`: the START, the unit steps, the end check (70_reset_and_hazards.md R189). -/
def decodeSteps (src : List Byte) : Nat := src.length / 4 + 2

/-- From `s` the host STARTs an ENCODE of `src`; `t` is the state after all its steps. -/
abbrev EncodeRun (s : State) (src : List Byte) (t : State) : Prop :=
  core.run (encodeSteps s.cfg src) (presentStart .enc src s) = .next t

/-- From `s` the host STARTs a DECODE of `src`; `t` is the state after all its steps. -/
abbrev DecodeRun (s : State) (src : List Byte) (t : State) : Prop :=
  core.run (decodeSteps src) (presentStart .dec src s) = .next t

/-! ### Streams of units -/

/-- The complete units of a source, each as its dispatch reads it (41_decode.md R131, R133). -/
def unitsOf (c : Cfg) : List Byte → List Instr
  | b0 :: b1 :: b2 :: b3 :: rest => dispatchUnit c b0 b1 b2 b3 :: unitsOf c rest
  | _ => []

/-- The number of payload fields a unit feeds: 3 for REG, TUN and NCS, 2 for TPD1, 1 for TPD2 (41_decode.md R148). -/
def fieldCount : Instr → Nat
  | .reg .. => 3
  | .tun .. => 3
  | .ncs .. => 3
  | .tpd1 .. => 2
  | .tpd2 .. => 1

/-- An offset is in the violation set of a source (60_exceptions.md R164): the start of a unit whose lead byte fails, a
consumed payload position without its marker, or the start of an incomplete unit. -/
def violationAt (c : Cfg) (src : List Byte) (off : Nat) : Bool :=
  match decode c (src.drop (off / 4 * 4)) with
  | .error .lead => off % 4 == 0
  | .error (.short left) => off % 4 == 0 && left != 0
  | .ok (i, _) => (consumedOperands c i).any fun e => e.1 == off % 4 && e.2.cm != c.cont

/-- The unit is a REG or TUN that is a genuine noncharacter pattern (30_encoding.md R84 (a)). -/
def noncharUnit : Instr → Bool
  | .reg _ _ p1 p2 p3 => Instr.noncharFields p1.d p2.d p3.d
  | .tun _ p1 p2 p3 => Instr.noncharFields p1.d p2.d p3.d
  | .ncs .. => false
  | .tpd1 .. => false
  | .tpd2 .. => false

/-- The position rule of canonical streams for a unit that is not the last (30_encoding.md R84 (b)). -/
def innerUnit : Instr → Bool
  | .reg .. => true
  | .tun .. => false
  | .ncs _ _ _ special _ _ => special == 0#1
  | .tpd1 .. => false
  | .tpd2 .. => false

/-- The position rule of canonical streams for the last unit: it is no REG; TUN, TPD1, TPD2 may stand there, and so may
an NCS with either value of `special` (30_encoding.md R84 (b)). -/
def lastUnit : Instr → Bool
  | .reg .. => false
  | .tun .. => true
  | .ncs .. => true
  | .tpd1 .. => true
  | .tpd2 .. => true

/-- A unit that can end an ENCODE result, a stricter rule than `lastUnit`: it is terminal, or the NCS that replaced a TUN,
which has `special = 1` (40_encode.md R107, R118). -/
def terminalUnit : Instr → Bool
  | .reg .. => false
  | .tun .. => true
  | .ncs _ _ _ special _ _ => special == 1#1
  | .tpd1 .. => true
  | .tpd2 .. => true

/-- A canonical stream: canonical units, each in a right position (30_encoding.md R84). -/
abbrev CanonicalStream (c : Cfg) (units : List Instr) : Prop :=
  (∀ i ∈ units, i.wf c = true ∧ i.canonical c = true) ∧
    ∀ k i, units[k]? = some i → (if k + 1 = units.length then lastUnit i else innerUnit i) = true

/-! ### Units as text -/

/-- The code point of a 4-byte UTF-8 sequence (30_encoding.md R90). -/
def codePoint (b0 b1 b2 b3 : Byte) : Nat :=
  b0.toNat % 8 * 2 ^ 18 + b1.toNat % 64 * 2 ^ 12 + b2.toNat % 64 * 2 ^ 6 + b3.toNat % 64

/-- A well-formed 4-byte UTF-8 sequence: lead `11110uuu`, continuation bytes `10xxxxxx`, neither overlong nor out of range
(30_encoding.md R90). -/
def utf8WellFormed (b0 b1 b2 b3 : Byte) : Bool :=
  b0.toNat / 8 == 30 && b1.toNat / 64 == 2 && b2.toNat / 64 == 2 && b3.toNat / 64 == 2 &&
    decide (0x10000 ≤ codePoint b0 b1 b2 b3) && decide (codePoint b0 b1 b2 b3 ≤ 0x10FFFF)

/-- The code-point range of each variant under the decided configuration, first and last (30_encoding.md R90). -/
def codePointRange : Instr → Nat × Nat
  | .reg .. => (0x80000, 0xBFFFF)
  | .tun .. => (0x40000, 0x7FFFF)
  | .ncs .. => (0xC2000, 0xC200F)
  | .tpd1 .. => (0xC0000, 0xC0FFF)
  | .tpd2 .. => (0xC1000, 0xC103F)

/-- The bound under which hardware with `w`-bit length fields may be used (00_scope.md R14, U9; log 4). -/
abbrev FitsLenW (w n : Nat) : Prop := 8 * n < 2 ^ w ∧ 4 * ((8 * n + 17) / 18) < 2 ^ w

end Sys2Proof.Machine
end

