-- ==== Sys2Proof/Certificates/Slice0/Obligations.lean ====
section
/-! DEFINITION. The statements about the model, each citing the rule of the spec it formalises. -/

open Sys2Proof Sys2Proof.Machine

/-! ### Encoding -/

/-- Decoding the encoding of a well-formed unit gives it back, with every operand bit (30_encoding.md R71 to R80). -/
def Obligations.DecodeInvertsEncode : Prop :=
  ∀ (c : Cfg) (i : Instr) (rest : List Byte), i.wf c = true → decode c (encode c i ++ rest) = .ok (i, rest)

/-- What decodes is well formed, and its encoding is the bytes it was decoded from. -/
def Obligations.EncodeInvertsDecode : Prop :=
  ∀ (c : Cfg) (bytes rest : List Byte) (i : Instr), decode c bytes = .ok (i, rest) →
    i.wf c = true ∧ bytes = encode c i ++ rest

/-- The dispatch of 41_decode.md R133: in its order, with exactly one variant for every unit that passed R132. -/
def Obligations.DispatchSelectsOneVariant : Prop :=
  ∀ (c : Cfg) (b0 b1 b2 b3 : Byte) (rest : List Byte), b0.extractLsb' 4 4 = c.leadHi →
    ∃ i, decode c (b0 :: b1 :: b2 :: b3 :: rest) = .ok (i, rest) ∧
      i.mnemonic =
        if b0.getLsbD 0 = false then "REG"
        else if b0.getLsbD 1 = false then "TUN"
        else if b1 = c.ncm then "NCS"
        else if b1.getLsbD 0 = false then "TPD1"
        else "TPD2"

/-- The first row of the opcode table whose mask and match fit a word is the variant the decoder reads from it; a word
that fits no row is refused (30_encoding.md R83, an inference the spec marks as its own; the values are those of log 2). -/
def Obligations.OpTableRowIsTheVariant : Prop :=
  ∀ w : BitVec 32, (opRow w).map OpRow.mnemonic = (decodeTableWord 32 w.toNat).map Instr.mnemonic

/-- The `wf` pair of a word's row says whether DEC accepts the unit, its `canon` pair and the collision clause whether ENC
can emit it (30_encoding.md R83, R84, inferences the spec marks as its own; the values are those of log 2). -/
def Obligations.OpTablePairsMeanAcceptedAndCanonical : Prop :=
  ∀ (w : BitVec 32) (r : OpRow) (i : Instr), opRow w = some r → decodeTableWord 32 w.toNat = some i →
    i.accepted Cfg.decided = (w &&& r.wfMask == r.wfMatch) ∧
      i.canonical Cfg.decided = ((w &&& r.canonMask == r.canonMatch) && !noncharUnit i)

/-- Words written out from 30_encoding.md R76 to R80 under the decided configuration (log 2). -/
def Obligations.WrittenWordsDecode : Prop :=
  decodeTableWord 32 0b11110010100100001001010010001001 = some (Instr.mkReg Cfg.decided 0x10 0x14 0x09) ∧
  decodeTableWord 32 0b11110001100100001001010010001000 = some (Instr.mkTun Cfg.decided 0x10 0x14 0x08) ∧
  decodeTableWord 32 0b11110011100000101000000010001111 = some (Instr.mkNcs Cfg.decided 1 3 1) ∧
  decodeTableWord 32 0b11110011100000001000001110000000 = some (Instr.mkTpd1 Cfg.decided 0x03 0x00) ∧
  decodeTableWord 32 0b11110011100000011000000010010100 = some (Instr.mkTpd2 Cfg.decided 0x14) ∧
  decodeTableWord 32 0b11100010100000001000000010000000 = none

/-! ### The unit step of DEC -/

/-- REG and TUN (41_decode.md R134, R135): with all three markers right, the 18 bits are fed and the engine goes on to the
next unit; otherwise `MalformedInput` at the first position whose marker is wrong. -/
def Obligations.RegAndTunFeedEighteenBits : Prop :=
  ∀ (s : State) (mid : BitVec 2) (tag1 : BitVec 1) (p1 p2 p3 : Payload) (i : Instr),
    i = .reg mid tag1 p1 p2 p3 ∨ i = .tun mid p1 p2 p3 →
    (p1.cm = s.cfg.cont → p2.cm = s.cfg.cont → p3.cm = s.cfg.cont →
      s.dec.nbits ≤ 7 → s.dec.acc < 2 ^ s.dec.nbits →
        ∃ t, exec i s = .next t ∧ Fed s t (fieldBits p1.d ++ fieldBits p2.d ++ fieldBits p3.d)) ∧
    (p1.cm ≠ s.cfg.cont → ∃ t, exec i s = .next t ∧ Malformed s t (s.dec.pos + 1)) ∧
    (p1.cm = s.cfg.cont → p2.cm ≠ s.cfg.cont → ∃ t, exec i s = .next t ∧ Malformed s t (s.dec.pos + 2)) ∧
    (p1.cm = s.cfg.cont → p2.cm = s.cfg.cont → p3.cm ≠ s.cfg.cont →
      ∃ t, exec i s = .next t ∧ Malformed s t (s.dec.pos + 3))

/-- NCS (41_decode.md R138): the 18 bits `plane ‖ 1111 ‖ 111111 ‖ 11111 ‖ flag` are fed, whatever the ignored bits hold,
no exception is possible, and the original tag is part of the variant's value only. -/
def Obligations.NcsFeedsTheReconstructedBits : Prop :=
  ∀ (s : State) (mid : BitVec 2) (ign2 : Byte) (ign3 : BitVec 4) (special : BitVec 1) (plane : BitVec 2)
    (flag : BitVec 1), s.dec.nbits ≤ 7 → s.dec.acc < 2 ^ s.dec.nbits →
    ∃ t, exec (.ncs mid ign2 ign3 special plane flag) s = .next t ∧
      Fed s t (bitsOf 2 plane.toNat ++ List.replicate 15 true ++ bitsOf 1 flag.toNat) ∧
      (classify (.ncs mid ign2 ign3 special plane flag)).origTag s.cfg = if special = 1#1 then 0b01#2 else s.cfg.tagReg

/-- TPD1 (41_decode.md R139): payload bytes 2 and 3 are fed, or `MalformedInput` at the first of them whose marker is
wrong. -/
def Obligations.Tpd1FeedsTwelveBits : Prop :=
  ∀ (s : State) (mid : BitVec 2) (ign1 : BitVec 7) (p2 p3 : Payload),
    (p2.cm = s.cfg.cont → p3.cm = s.cfg.cont → s.dec.nbits ≤ 7 → s.dec.acc < 2 ^ s.dec.nbits →
      ∃ t, exec (.tpd1 mid ign1 p2 p3) s = .next t ∧ Fed s t (fieldBits p2.d ++ fieldBits p3.d)) ∧
    (p2.cm ≠ s.cfg.cont → ∃ t, exec (.tpd1 mid ign1 p2 p3) s = .next t ∧ Malformed s t (s.dec.pos + 2)) ∧
    (p2.cm = s.cfg.cont → p3.cm ≠ s.cfg.cont →
      ∃ t, exec (.tpd1 mid ign1 p2 p3) s = .next t ∧ Malformed s t (s.dec.pos + 3))

/-- TPD2 (41_decode.md R140): payload byte 3 is fed, or `MalformedInput` if its marker is wrong. -/
def Obligations.Tpd2FeedsSixBits : Prop :=
  ∀ (s : State) (mid : BitVec 2) (ign1 : BitVec 7) (ign2 : Byte) (p3 : Payload),
    (p3.cm = s.cfg.cont → s.dec.nbits ≤ 7 → s.dec.acc < 2 ^ s.dec.nbits →
      ∃ t, exec (.tpd2 mid ign1 ign2 p3) s = .next t ∧ Fed s t (fieldBits p3.d)) ∧
    (p3.cm ≠ s.cfg.cont → ∃ t, exec (.tpd2 mid ign1 ign2 p3) s = .next t ∧ Malformed s t (s.dec.pos + 3))

/-- The frame of a unit DEC accepts, of any variant: `acc`, `nbits`, `dst` and `pos` are all that changes; the bytes
stored are those from the old length of `dst` on, `(nbits + 6·F) div 8` of them for `F` fed fields, and every other offset
of `dst` reads as before (20_memory.md R57, 41_decode.md R131, R150). -/
def Obligations.AcceptedUnitFrame : Prop :=
  ∀ (i : Instr) (s : State), i.accepted s.cfg = true →
    ∃ t, exec i s = .next t ∧ t.cfg = s.cfg ∧ t.enc = s.enc ∧ t.draw = s.draw ∧ t.dec.start = s.dec.start ∧
      t.dec.src = s.dec.src ∧ t.dec.m = s.dec.m ∧ t.dec.phase = s.dec.phase ∧ t.dec.errOff = s.dec.errOff ∧
      t.dec.pos = s.dec.pos + 4 ∧
      (∀ off, off < s.dec.dst.length ∨ t.dec.dst.length ≤ off →
        Buffer.read t.dec.dst off = Buffer.read s.dec.dst off) ∧
      (s.dec.nbits ≤ 7 → t.dec.dst.length = s.dec.dst.length + (s.dec.nbits + 6 * fieldCount i) / 8)

/-- A unit that is not accepted takes `MalformedInput(pos + j)` for the first consumed position `j` whose marker is wrong,
and changes nothing outside DEC (60_exceptions.md R163, R166). -/
def Obligations.RejectedUnitIsMalformed : Prop :=
  ∀ (i : Instr) (s : State), i.accepted s.cfg = false →
    ∃ j p t, (consumedOperands s.cfg i).find? (fun e => e.2.cm ≠ s.cfg.cont) = some (j, p) ∧
      exec i s = .next t ∧ Malformed s t (s.dec.pos + j)

/-- A unit's effect is fixed by the payload positions it consumes: the bits DEC ignores have none (30_encoding.md R86). -/
def Obligations.IgnoredBitsHaveNoEffect : Prop :=
  ∀ (i j : Instr) (s : State), consumedOperands s.cfg i = consumedOperands s.cfg j → exec i s = exec j s

/-- The reconstruction of a substitute (30_encoding.md R82): the three bytes carry the marker, their fields are
`plane ‖ 1111`, `111111` and `11111 ‖ flag`, and the original tag follows from `special`. -/
def Obligations.SubstituteOperandsAreReconstructed : Prop :=
  ∀ (c : Cfg) (mid : BitVec 2) (ign2 : Byte) (ign3 : BitVec 4) (special : BitVec 1) (plane : BitVec 2)
    (flag : BitVec 1),
    consumedOperands c (.ncs mid ign2 ign3 special plane flag) =
      [(1, ⟨c.cont, plane ++ 0b1111#4⟩), (2, ⟨c.cont, 0b111111#6⟩), (3, ⟨c.cont, 0b11111#5 ++ flag⟩)] ∧
    (classify (.ncs mid ign2 ign3 special plane flag)).origTag c = if special = 1#1 then 0b01#2 else c.tagReg

/-- The payload bit string of the variant `classify` gives a unit is what its consumed positions feed, and their number is
its field count (41_decode.md R147, R148). For a unit that R141 rejects the rule defines no data fields, and that the
statement holds of it too is the model's choice (log 22). -/
def Obligations.ClassifyGivesThePayload : Prop :=
  ∀ (c : Cfg) (i : Instr),
    (consumedOperands c i).flatMap (fun e => fieldBits e.2.d) = payloadBits (classify i) ∧
      (consumedOperands c i).length = fieldCount i

/-- Feed and emit (41_decode.md R142): 6 bits appended at the low end, the top 8 emitted when 8 or more are held. -/
def Obligations.FeedAppendsSixBits : Prop :=
  ∀ (d : Dec) (v : Sextet), d.nbits ≤ 7 → d.acc < 2 ^ d.nbits →
    decBits (decFeed v d) = decBits d ++ fieldBits v ∧ (decFeed v d).acc < 2 ^ (decFeed v d).nbits ∧
      (8 ≤ d.nbits + 6 →
        (decFeed v d).nbits + 8 = d.nbits + 6 ∧ (decFeed v d).nbits ≤ 5 ∧
          (decFeed v d).dst.length = d.dst.length + 1) ∧
      (d.nbits + 6 < 8 → (decFeed v d).nbits = d.nbits + 6 ∧ (decFeed v d).dst = d.dst)

/-! ### Steps of the machine -/

/-- A step runs the unit that the bytes at `pos` decode to, then makes ENC's move, which with no ENCODE in progress and no
START presented is none (41_decode.md R131; log 10). -/
def Obligations.StepRunsTheDecodedUnit : Prop :=
  ∀ (s : State) (i : Instr) (rest : List Byte), s.dec.start = none → s.dec.phase = .run →
    s.dec.m ≤ s.dec.src.length → s.dec.pos + 4 ≤ s.dec.m →
    decode s.cfg (s.dec.src.drop s.dec.pos) = .ok (i, rest) →
    step s = andThen (exec i s) encMove ∧ (s.enc.start = none → s.enc.phase ≠ .run → step s = exec i s)

/-- After `withFetchWord` the next step runs the placed word's unit (the model's own host hook, log 16). -/
def Obligations.FetchWordIsRunNext : Prop :=
  ∀ (s : State) (w : Nat) (i : Instr) (rest : List Byte), decode s.cfg (tableBytes 32 w) = .ok (i, rest) →
    s.enc.start = none → s.enc.phase ≠ .run →
    step (s.withFetchWord 32 w) = exec i (s.withFetchWord 32 w)

/-- Lead validation (41_decode.md R132): a complete unit whose lead nibble is not `LEAD_HI` is `MalformedInput(pos)`. -/
def Obligations.BadLeadByteIsMalformed : Prop :=
  ∀ (s : State) (b0 : Byte), s.dec.start = none → s.dec.phase = .run → s.dec.m ≤ s.dec.src.length →
    s.dec.pos + 4 ≤ s.dec.m → Buffer.read s.dec.src s.dec.pos = some b0 → b0.extractLsb' 4 4 ≠ s.cfg.leadHi →
    ∃ t, decMove s = .next t ∧ Malformed s t s.dec.pos

/-- The end of the loop (41_decode.md R143, R144): at `pos = m` DONE with the output as it stands, whatever bits are held;
with 1 to 3 bytes left, `MalformedInput(pos)`, whatever they are. The offset of a length violation is the spec's decision
D11 (log 9). -/
def Obligations.EndOfStreamIsDoneOrMalformed : Prop :=
  ∀ s : State, s.dec.start = none → s.dec.phase = .run → s.dec.m ≤ s.dec.src.length → s.dec.m < s.dec.pos + 4 →
    ∃ t, decMove s = .next t ∧
      (s.dec.pos = s.dec.m → t.dec.phase = .done ∧ decDst t = some s.dec.dst ∧ decErrOffset t = none) ∧
      (s.dec.pos ≠ s.dec.m → Malformed s t s.dec.pos)

/-- Start-of-operation values of both engines, whatever they held before (10_state.md R31). -/
def Obligations.StartSetsTheStartValues : Prop :=
  ∀ (s : State) (src : List Byte),
    (s.enc.start = some src → s.enc.phase ≠ .run →
      ∃ t, encMove s = .next t ∧ t.dec = s.dec ∧ t.cfg = s.cfg ∧ t.enc.start = none ∧ t.enc.src = src ∧
        t.enc.n = src.length ∧ t.enc.total = 8 * src.length ∧
        t.enc.units = (if src.length = 0 then s.cfg.emptyUnits.val else (8 * src.length + 17) / 18) ∧
        t.enc.r = 8 * src.length % 18 ∧ t.enc.u = 0 ∧ t.enc.ip = 0 ∧ t.enc.acc = 0 ∧ t.enc.nbits = 0 ∧
        t.enc.dst = [] ∧ t.enc.phase = .run) ∧
    (s.dec.start = some src → s.dec.phase ≠ .run →
      ∃ t, decMove s = .next t ∧ t.enc = s.enc ∧ t.cfg = s.cfg ∧ t.dec.start = none ∧ t.dec.src = src ∧
        t.dec.m = src.length ∧ t.dec.pos = 0 ∧ t.dec.acc = 0 ∧ t.dec.nbits = 0 ∧ t.dec.dst = [] ∧
        t.dec.phase = .run)

/-- A START in phase RUN has no move (70_reset_and_hazards.md R187; the refusal is the model's, log 11). -/
def Obligations.StartInRunIsRefused : Prop :=
  ∀ (s : State) (src : List Byte),
    (s.dec.start = some src → s.dec.phase = .run → step s = .refused (.startInRun .dec)) ∧
    (s.enc.start = some src → s.enc.phase = .run → encMove s = .refused (.startInRun .enc))

/-- After reset both engines are IDLE and no result is held (70_reset_and_hazards.md R180). -/
def Obligations.ResetHoldsNoResult : Prop :=
  encStatus State.reset = .idle ∧ decStatus State.reset = .idle ∧ encDst State.reset = none ∧
    decDst State.reset = none ∧ encDstLen State.reset = none ∧ decDstLen State.reset = none ∧
    decErrOffset State.reset = none ∧ decResult State.reset = none

/-- The invariant holds at reset. -/
def Obligations.ResetMeetsTheInvariant : Prop := Inv State.reset

/-- Every step keeps the invariant: the accumulator bounds of 10_state.md R24, the cursors of R22, R23 and R25, the read
pattern of 20_memory.md R55 and the output bounds. R24 and R55 are inferences the spec marks as its own. -/
def Obligations.StepKeepsTheInvariant : Prop := ∀ s t : State, Inv s → step s = .next t → Inv t

/-- Under the invariant a step always answers a next state, unless the host issued START to an engine in RUN: no engine
is ever stuck (41_decode.md R145, an inference the spec marks as its own, 40_encode.md R117). -/
def Obligations.StepAlwaysAnswers : Prop :=
  ∀ s : State, Inv s → (s.dec.start = none ∨ s.dec.phase ≠ .run) → (s.enc.start = none ∨ s.enc.phase ≠ .run) →
    ∃ t, step s = .next t

/-- No step changes the configuration (10_state.md R32). -/
def Obligations.StepKeepsTheConfiguration : Prop := ∀ s t : State, step s = .next t → t.cfg = s.cfg

/-- What can change a phase (10_state.md R26, 60_exceptions.md R167): an engine out of RUN changes only by a START, RUN is
entered only by a START, DONE and FAULT only from RUN, and nothing returns to IDLE. That an engine out of RUN with no START
is wholly unchanged, its transient fields included (the first two clauses), is the model's choice (log 14): the rules speak
of the phase and the result, and U14 lets those fields hold any value. -/
def Obligations.OnlyStartAndEndChangeThePhase : Prop :=
  ∀ s t : State, step s = .next t →
    (s.dec.start = none → s.dec.phase ≠ .run → t.dec = s.dec) ∧
    (s.enc.start = none → s.enc.phase ≠ .run → t.enc = s.enc) ∧
    (t.dec.phase = .run → s.dec.phase ≠ .run → s.dec.start = some t.dec.src) ∧
    (t.enc.phase = .run → s.enc.phase ≠ .run → s.enc.start = some t.enc.src) ∧
    (t.dec.phase = .done → s.dec.phase = .run ∨ s.dec.phase = .done) ∧
    (t.dec.phase = .fault → s.dec.phase = .run ∨ s.dec.phase = .fault) ∧
    (t.enc.phase = .done → s.enc.phase = .run ∨ s.enc.phase = .done) ∧
    (t.dec.phase = .idle → s.dec.phase = .idle) ∧ (t.enc.phase = .idle → s.enc.phase = .idle)

/-- During an operation `SRC` and its length do not change, and `DST` only grows at its end (20_memory.md R50, R57). -/
def Obligations.SourceIsImmutableAndOutputAppends : Prop :=
  ∀ s t : State, step s = .next t →
    (s.dec.phase = .run → t.dec.phase = .run →
      t.dec.src = s.dec.src ∧ t.dec.m = s.dec.m ∧ s.dec.dst <+: t.dec.dst) ∧
    (s.dec.phase = .run → t.dec.phase = .done → t.dec.dst = s.dec.dst) ∧
    (s.enc.phase = .run → t.enc.phase = .run →
      t.enc.src = s.enc.src ∧ t.enc.n = s.enc.n ∧ t.enc.total = s.enc.total ∧ t.enc.units = s.enc.units ∧
        t.enc.r = s.enc.r ∧ s.enc.dst <+: t.enc.dst) ∧
    (s.enc.phase = .run → t.enc.phase = .done → t.enc.dst = s.enc.dst)

/-- The widths of 10_state.md R22 and R23 are enough: with `LEN_W`-bit lengths under the bound of 00_scope.md R14, every
field of a running engine fits its width (R24, an inference the spec marks as its own; `LEN_W` is open, log 4). -/
def Obligations.FieldsFitTheirWidths : Prop :=
  ∀ (s : State) (w : Nat), Inv s →
    (s.enc.phase = .run → 1 ≤ s.enc.n → FitsLenW w s.enc.n →
      s.enc.n < 2 ^ w ∧ s.enc.total < 2 ^ w ∧ s.enc.units < 2 ^ w ∧ s.enc.r < 2 ^ 5 ∧ s.enc.u < 2 ^ w ∧
        s.enc.ip < 2 ^ w ∧ s.enc.acc < 2 ^ 13 ∧ s.enc.nbits < 2 ^ 4 ∧ s.enc.dst.length < 2 ^ w) ∧
    (s.dec.phase = .run → s.dec.m < 2 ^ w →
      s.dec.pos < 2 ^ w ∧ s.dec.acc < 2 ^ 13 ∧ s.dec.nbits < 2 ^ 4 ∧ s.dec.dst.length < 2 ^ w)

/-! ### ENC -/

/-- A slot step (40_encode.md R103, R104): with fewer than 6 bits held the next byte enters at the low end; then the 6
oldest bits leave, and stand under the continuation marker. -/
def Obligations.SlotStepTakesTheOldestBits : Prop :=
  ∀ (c : Cfg) (e : Enc), e.nbits ≤ 7 → e.acc < 2 ^ e.nbits →
    (e.nbits < 6 →
      (encPull e).ip = e.ip + 1 ∧ 8 ≤ (encPull e).nbits ∧ (encPull e).nbits ≤ 13 ∧
        bitsOf (encPull e).nbits (encPull e).acc = bitsOf e.nbits e.acc ++ bitsOf 8 (srcRead e.src e.n e.ip).toNat) ∧
    (6 ≤ e.nbits → encPull e = e) ∧
    fieldBits (encSlot e).1 ++ bitsOf (encSlot e).2.nbits (encSlot e).2.acc =
      bitsOf (encPull e).nbits (encPull e).acc ∧
    (encSlot e).2.nbits ≤ 7 ∧ (encSlot e).2.acc < 2 ^ (encSlot e).2.nbits ∧
    (naturalByte c (encSlot e).1).extractLsb' 6 2 = c.cont ∧
    (naturalByte c (encSlot e).1).extractLsb' 0 6 = (encSlot e).1

/-- The closed form of the natural payload (40_encode.md R105): field `s` holds stream bits `6s … 6s+5`, and zeros past
the end. R105 is an inference the spec marks as its own. -/
def Obligations.NaturalFieldsAreTheBitStream : Prop :=
  ∀ (src : List Byte) (s : Nat),
    fieldBits (naturalField src s) = (List.range 6).map fun i => (bitStream src).getD (6 * s + i) false

/-- The residue and the class of the final unit by `n mod 9` (00_scope.md R15, an inference the spec marks as its own). -/
def Obligations.ResidueTableHolds : Prop :=
  ∀ (c : Cfg) (n : Nat) (p1 p2 p3 : Byte),
    8 * n % 18 = [0, 8, 16, 6, 14, 4, 12, 2, 10].getD (n % 9) 0 ∧
    formFinal c (8 * n % 18) p1 p2 p3 =
      if n % 9 = 0 ∨ n % 9 = 2 ∨ n % 9 = 4 ∨ n % 9 = 6 then formTun p1 p2 p3
      else if n % 9 = 1 ∨ n % 9 = 3 ∨ n % 9 = 8 then formTpd1 c p1 p2
      else formTpd2 c p1

/-- The formation of a unit before the collision test: classification of the final unit by the remainder (40_encode.md
R107), the TUN formation (R108), the relocation and skip marker of TPD1 (R109) and TPD2 (R110), and the REG formation of a
non-final unit (R106). The byte dropped by a relocation may hold anything here. -/
def Obligations.FinalUnitIsFormedByRemainder : Prop :=
  ∀ (c : Cfg) (r : Nat) (p1 p2 p3 : Byte),
    (r = 0 ∨ 12 ≤ r → formUnit c true r p1 p2 p3 = ⟨0b01#2, p1, p2, p3⟩) ∧
    (6 ≤ r → r < 12 → formUnit c true r p1 p2 p3 = ⟨0b11#2, c.mark ||| 0#8, p1, p2⟩) ∧
    (0 < r → r < 6 → formUnit c true r p1 p2 p3 = ⟨0b11#2, c.mark ||| 1#8, c.mark, p1⟩) ∧
    formUnit c false r p1 p2 p3 = ⟨c.tagReg, p1, p2, p3⟩

/-- The collision test in terms of the 18 payload bits of a REG or TUN unit (40_encode.md R111): it holds exactly when
bits 2 to 16 are all 1. -/
def Obligations.CollisionIsFifteenOnes : Prop :=
  ∀ (c : Cfg) (d1 d2 d3 : Sextet),
    collides c (naturalByte c d1) (naturalByte c d2) (naturalByte c d3) =
      (((fieldBits d1 ++ fieldBits d2 ++ fieldBits d3).drop 2).take 15).all id

/-- Which units can collide (40_encode.md R113): never a TPD1 or TPD2, and never the final unit when `12 ≤ r`.
R113 is an inference the spec marks as its own. -/
def Obligations.PaddedUnitsNeverCollide : Prop :=
  ∀ c : Cfg,
    (∀ p1 p2 : Byte, collides c (formTpd1 c p1 p2).p1 (formTpd1 c p1 p2).p2 (formTpd1 c p1 p2).p3 = false) ∧
    (∀ p1 : Byte, collides c (formTpd2 c p1).p1 (formTpd2 c p1).p2 (formTpd2 c p1).p3 = false) ∧
    ∀ src : List Byte, 12 ≤ 8 * src.length % 18 → ∀ u, u + 1 = unitCount c src.length →
      collides c (naturalByte c (naturalField src (3 * u))) (naturalByte c (naturalField src (3 * u + 1)))
        (naturalByte c (naturalField src (3 * u + 2))) = false

/-- The NCS rewrite loses no information (40_encode.md R112): a colliding REG or TUN is rewritten to an NCS unit from which
DEC reconstructs the same fields and the same tag; a unit that does not collide is left as it is. -/
def Obligations.SubstitutionLosesNothing : Prop :=
  (∀ (c : Cfg) (tag : BitVec 2) (d1 d2 d3 : Sextet), c.Legal → tag = c.tagReg ∨ tag = 0b01#2 →
    collides c (naturalByte c d1) (naturalByte c d2) (naturalByte c d3) = true →
    ∃ i, decode c (draftBytes c (settleUnit c ⟨tag, naturalByte c d1, naturalByte c d2, naturalByte c d3⟩)) =
        .ok (i, []) ∧
      i.mnemonic = "NCS" ∧ i.canonical c = true ∧
      consumedOperands c i = [(1, ⟨c.cont, d1⟩), (2, ⟨c.cont, d2⟩), (3, ⟨c.cont, d3⟩)] ∧
      (classify i).origTag c = tag) ∧
  ∀ (c : Cfg) (d : Draft), collides c d.p1 d.p2 d.p3 = false → settleUnit c d = d

/-- The ENCODE run, unit by unit: after the START and `k ≤ U` unit steps ENC is in RUN at unit `k`, has made the first
`k` units, and has read `ceil(18k/8)` bytes (40_encode.md R102, 20_memory.md R55, 70_reset_and_hazards.md R189).
The units are those of the closed form; R55 and R105 are inferences the spec marks as its own. -/
def Obligations.EncodeMakesItsUnitsInOrder : Prop :=
  ∀ (s : State) (src : List Byte) (k : Nat), ReadyEnc s → k ≤ unitCount s.cfg src.length →
    ∃ t, core.run (k + 1) (presentStart .enc src s) = .next t ∧ t.enc.phase = .run ∧ t.enc.u = k ∧
      t.enc.ip = (9 * k + 3) / 4 ∧ t.enc.dst = (List.range k).flatMap (encodedUnit s.cfg src)

/-- ENCODE never fails: after its `U` unit steps and the end it is DONE, and its result is the closed form, a function of
`SRC` and `Cfg` only (40_encode.md R100, R105, R117). R105 is an inference the spec marks as its own. -/
def Obligations.EncodeMatchesTheClosedForm : Prop :=
  ∀ (s : State) (src : List Byte), ReadyEnc s →
    ∃ t, EncodeRun s src t ∧ encStatus t = .done ∧ encDst t = some (encodeAll s.cfg src)

/-- The length of an ENCODE result (40_encode.md R116). -/
def Obligations.EncodeOutputLength : Prop :=
  ∀ (s : State) (src : List Byte), ReadyEnc s →
    ∃ t, EncodeRun s src t ∧
      encDstLen t =
        some (if src.length = 0 then 4 * s.cfg.emptyUnits.val else 4 * ((8 * src.length + 17) / 18))

/-- The overrun reads of an ENCODE: `P - n` by `n mod 9` (20_memory.md R55, an inference the spec marks as its own;
`EMPTY_UNITS = 0` is the decision of log 3). -/
def Obligations.OverrunReadsAreAtMostTwo : Prop :=
  ∀ (c : Cfg) (n : Nat), c.emptyUnits = 0 →
    n ≤ (9 * unitCount c n + 3) / 4 ∧
      (9 * unitCount c n + 3) / 4 - n = [0, 2, 1, 2, 1, 2, 1, 2, 1].getD (n % 9) 0

/-- Every ENCODE result is a canonical stream: its units are canonical, all but the last are REG or an NCS with
`special = 0`, and the last is terminal or an NCS with `special = 1` (30_encoding.md R84, 40_encode.md R118 (a), (d), inferences the
spec marks as its own). -/
def Obligations.EncodeResultIsCanonical : Prop :=
  ∀ (c : Cfg) (src : List Byte), c.Legal →
    ∃ units, encodeAll c src = units.flatMap (encode c) ∧ units.length = unitCount c src.length ∧
      CanonicalStream c units ∧ ∀ i, units.getLast? = some i → terminalUnit i = true

/-- No emitted unit satisfies the collision test, and every emitted byte carries its fixed pattern, the marker of payload
byte 1 provided `NCM` has it (40_encode.md R118 (b), (c), an inference the spec marks as its own). -/
def Obligations.EmittedUnitsAvoidNoncharacters : Prop :=
  ∀ (c : Cfg) (src : List Byte) (u : Nat),
    ∃ b0 b1 b2 b3 : Byte, encodedUnit c src u = [b0, b1, b2, b3] ∧ collides c b1 b2 b3 = false ∧
      b0.extractLsb' 4 4 = c.leadHi ∧ b0.extractLsb' 2 2 = c.leadMid ∧ (c.MarkedNcm → b1.extractLsb' 6 2 = c.cont) ∧
      b2.extractLsb' 6 2 = c.cont ∧ b3.extractLsb' 6 2 = c.cont

/-- The empty input under both values of `EMPTY_UNITS` (40_encode.md R101): no unit, or the unit `TUN 0, 0, 0`, which
decodes to two zero bytes. Which reading holds is the spec's decision D6 (log 3). -/
def Obligations.EmptyInputUnderBothReadings : Prop :=
  ∀ c : Cfg,
    (c.emptyUnits = 0 → encodeAll c [] = [] ∧ decodeAll c [] = .ok []) ∧
    (c.emptyUnits = 1 →
      encodeAll c [] = encode c (Instr.mkTun c 0 0 0) ∧ decodeAll c (encodeAll c []) = .ok [0#8, 0#8])

/-- Under the decided configuration every canonical unit is a well-formed UTF-8 sequence in its variant's range of code
points, and no noncharacter (30_encoding.md R90, general knowledge of the spec; log 2). -/
def Obligations.DecidedUnitsAreUtf8 : Prop :=
  ∀ i : Instr, i.canonical Cfg.decided = true →
    ∃ b0 b1 b2 b3 : Byte, encode Cfg.decided i = [b0, b1, b2, b3] ∧ utf8WellFormed b0 b1 b2 b3 = true ∧
      (codePointRange i).1 ≤ codePoint b0 b1 b2 b3 ∧ codePoint b0 b1 b2 b3 ≤ (codePointRange i).2 ∧
      codePoint b0 b1 b2 b3 % 65536 < 0xFFFE

/-! ### Whole operations -/

/-- DECODE on the step machine agrees with the one-piece pass of 41_decode.md R151, for every source and every
configuration, within `m div 4` unit steps: it always ends, with exactly one result (R145). -/
def Obligations.DecodeMatchesTheOnePass : Prop :=
  ∀ (s : State) (src : List Byte), ReadyDec s →
    ∃ t, DecodeRun s src t ∧ decResult t = some (decodeAll s.cfg src)

/-- DECODE fails if and only if the violation set of its source is not empty, and reports the smallest element
(60_exceptions.md R164). Where a length violation stands is the spec's decision D11
(log 9). -/
def Obligations.DecodeReportsTheFirstViolation : Prop :=
  ∀ (s : State) (src : List Byte), ReadyDec s →
    ∃ t, DecodeRun s src t ∧
      (∀ off, decErrOffset t = some off ↔
        violationAt s.cfg src off = true ∧ ∀ o, o < off → violationAt s.cfg src o = false) ∧
      ((decDst t).isSome = true ↔ ∀ off, violationAt s.cfg src off = false)

/-- The emitted bytes of a successful DECODE are the successive 8-bit groups of the concatenation of all fed fields; fewer
than 8 bits are dropped, and terminal units stop nothing (41_decode.md R142, R143, R150). -/
def Obligations.DecodeEmitsThePayloadStream : Prop :=
  ∀ (s t : State) (src bytes : List Byte), ReadyDec s → DecodeRun s src t → decDst t = some bytes →
    src.length % 4 = 0 ∧
      ∃ tail, tail.length < 8 ∧
        (unitsOf s.cfg src).flatMap (fun i => payloadBits (classify i)) = bitStream bytes ++ tail

/-- The length of a successful DECODE's output (41_decode.md R148) and its bound (70_reset_and_hazards.md R182);
R148 is an inference the spec marks as its own. -/
def Obligations.DecodeOutputLength : Prop :=
  ∀ (s t : State) (src : List Byte) (len : Nat), ReadyDec s → DecodeRun s src t → decDstLen t = some len →
    len = 6 * ((unitsOf s.cfg src).map fieldCount).sum / 8 ∧ len ≤ 9 * (src.length / 4) / 4

/-- Round trip on the step machine (41_decode.md R146): the DECODE of an ENCODE result gives the original bytes, for every
legal configuration with `EMPTY_UNITS = 0` and every input, the empty one included. -/
def Obligations.DecodeOfEncodeIsTheInput : Prop :=
  ∀ (s : State) (x : List Byte), ReadyEnc s → ReadyDec s → s.cfg.Legal → s.cfg.emptyUnits = 0 →
    ∃ t y v, EncodeRun s x t ∧ encDst t = some y ∧ DecodeRun t y v ∧ decDst v = some x

/-- DECODE of two ENCODE results in a row yields the two inputs in a row when the first input's length is a multiple of 9
bytes (70_reset_and_hazards.md R184). The ENCODE results are those of the closed form R105, an inference the spec marks as
its own; `EMPTY_UNITS = 0` is the decision of log 3. -/
def Obligations.ConcatenatedResultsDecodeTogether : Prop :=
  ∀ (c : Cfg) (x y : List Byte), c.Legal → c.emptyUnits = 0 → x.length % 9 = 0 →
    decodeAll c (encodeAll c x ++ encodeAll c y) = .ok (x ++ y)

/-- The engines share nothing (10_state.md R21): what a step does to one depends neither on the other nor on the free
values drawn so far. -/
def Obligations.EnginesShareNothing : Prop :=
  ∀ s s' t t' : State, s.cfg = s'.cfg → step s = .next t → step s' = .next t' →
    (s.dec = s'.dec →
      t.dec.phase = t'.dec.phase ∧ decResult t = decResult t' ∧
        (s.dec.phase = .run → t.dec.phase = .run → t.dec = t'.dec)) ∧
    (s.enc = s'.enc →
      t.enc.phase = t'.enc.phase ∧ encDst t = encDst t' ∧ (t.enc.phase = .run → t.enc = t'.enc))

/-- No state survives an operation (10_state.md R20): the result of an operation is a function of its input and `Cfg`
alone, whatever the engines did before. -/
def Obligations.ResultsDoNotDependOnHistory : Prop :=
  ∀ (s s' t t' : State) (src : List Byte), s.cfg = s'.cfg →
    (ReadyDec s → ReadyDec s' → DecodeRun s src t → DecodeRun s' src t' → decResult t = decResult t') ∧
    (ReadyEnc s → ReadyEnc s' → EncodeRun s src t → EncodeRun s' src t' → encDst t = encDst t')
end

