-- ==== Sys2Proof/Laws/State.lean ====
section
/-! SUPPORT. One lemma per field per update of `State`, true by `rfl`. -/

namespace Sys2Proof.Machine

@[simp] theorem State.setEnc_cfg (s : State) (e : Enc) : (s.setEnc e).cfg = s.cfg := rfl
@[simp] theorem State.setEnc_enc (s : State) (e : Enc) : (s.setEnc e).enc = e := rfl
@[simp] theorem State.setEnc_dec (s : State) (e : Enc) : (s.setEnc e).dec = s.dec := rfl
@[simp] theorem State.setEnc_draw (s : State) (e : Enc) : (s.setEnc e).draw = s.draw := rfl

@[simp] theorem State.setDec_cfg (s : State) (d : Dec) : (s.setDec d).cfg = s.cfg := rfl
@[simp] theorem State.setDec_enc (s : State) (d : Dec) : (s.setDec d).enc = s.enc := rfl
@[simp] theorem State.setDec_dec (s : State) (d : Dec) : (s.setDec d).dec = d := rfl
@[simp] theorem State.setDec_draw (s : State) (d : Dec) : (s.setDec d).draw = s.draw := rfl

@[simp] theorem State.drew_cfg (s : State) (k : Nat) : (s.drew k).cfg = s.cfg := rfl
@[simp] theorem State.drew_enc (s : State) (k : Nat) : (s.drew k).enc = s.enc := rfl
@[simp] theorem State.drew_dec (s : State) (k : Nat) : (s.drew k).dec = s.dec := rfl
@[simp] theorem State.drew_draw (s : State) (k : Nat) : (s.drew k).draw = s.draw + k := rfl

end Sys2Proof.Machine
end

