-- ==== Sys2Proof/Laws/Encoder.lean ====
section
/-! SUPPORT. What each shared operation of ENC can do, said once: the overrun read, a pull, the end of a unit, emission. -/

namespace Sys2Proof.Machine

theorem srcRead_of_lt {src : List Byte} {n i : Nat} (h : i < n) : srcRead src n i = src.getD i 0#8 := by
  simp [srcRead, h]

@[simp] theorem srcRead_of_le {src : List Byte} {n i : Nat} (h : n ≤ i) : srcRead src n i = 0#8 := by
  simp [srcRead, Nat.not_lt.mpr h]

@[simp] theorem unitCount_zero (c : Cfg) : unitCount c 0 = c.emptyUnits.val := rfl

theorem unitCount_pos (c : Cfg) {n : Nat} (h : n ≠ 0) : unitCount c n = (8 * n + 17) / 18 := by
  simp [unitCount, h]

theorem encPull_of_lt {e : Enc} (h : e.nbits < 6) :
    encPull e =
      { e with
        ip := e.ip + 1
        acc := (e.acc <<< 8) ||| (srcRead e.src e.n e.ip).toNat
        nbits := e.nbits + 8 } := by
  simp [encPull, h]

theorem encPull_of_le {e : Enc} (h : 6 ≤ e.nbits) : encPull e = e := by
  simp [encPull, Nat.not_lt.mpr h]

/-- A pull changes `ip`, `acc` and `nbits` only. -/
theorem encPull_frame (e : Enc) :
    encPull e = { e with ip := (encPull e).ip, acc := (encPull e).acc, nbits := (encPull e).nbits } := by
  unfold encPull; split <;> rfl

/-- A slot step changes `ip`, `acc` and `nbits` only. -/
theorem encSlot_frame (e : Enc) :
    (encSlot e).2 =
      { e with ip := (encSlot e).2.ip, acc := (encSlot e).2.acc, nbits := (encSlot e).2.nbits } := by
  unfold encSlot encDrop encPull; dsimp only; split <;> rfl

@[simp] theorem draftBytes_length (c : Cfg) (d : Draft) : (draftBytes c d).length = 4 := rfl

@[simp] theorem emitUnit_length (c : Cfg) (final : Bool) (r : Nat) (v1 v2 v3 : Sextet) :
    (emitUnit c final r v1 v2 v3).length = 4 := rfl

/-- Appending byte by byte is appending the bytes. -/
theorem foldl_dstAppend (bytes dst : List Byte) : bytes.foldl dstAppend dst = dst ++ bytes := by
  induction bytes generalizing dst with
  | nil => simp
  | cons b bytes ih => simp [ih, dstAppend]

@[simp] theorem encEmit_dst (bytes : List Byte) (e : Enc) : (encEmit bytes e).dst = e.dst ++ bytes :=
  foldl_dstAppend bytes e.dst

@[simp] theorem encEmit_u (bytes : List Byte) (e : Enc) : (encEmit bytes e).u = e.u + 1 := rfl

/-- A unit step keeps the operation's constants, its source and the phase. -/
theorem encUnitStep_frame (c : Cfg) (e : Enc) :
    (encUnitStep c e).start = e.start ∧ (encUnitStep c e).src = e.src ∧ (encUnitStep c e).n = e.n ∧
      (encUnitStep c e).total = e.total ∧ (encUnitStep c e).units = e.units ∧ (encUnitStep c e).r = e.r ∧
      (encUnitStep c e).u = e.u + 1 ∧ (encUnitStep c e).phase = e.phase := by
  unfold encUnitStep encEmit
  dsimp only
  rw [encSlot_frame (encSlot (encSlot e).2).2, encSlot_frame (encSlot e).2, encSlot_frame e]
  exact ⟨rfl, rfl, rfl, rfl, rfl, rfl, rfl, rfl⟩

@[simp] theorem encFinish_cfg (s : State) : (encFinish s).cfg = s.cfg := rfl
@[simp] theorem encFinish_dec (s : State) : (encFinish s).dec = s.dec := rfl
@[simp] theorem encFinish_phase (s : State) : (encFinish s).enc.phase = .done := rfl
@[simp] theorem encFinish_dst (s : State) : (encFinish s).enc.dst = s.enc.dst := rfl

end Sys2Proof.Machine
end

