-- ==== Sys2Proof/Laws/Memory.lean ====
section
/-! SUPPORT. Buffers as cells: every buffer is in canonical form, `DstAppend` adds one cell after all others, and a read
before the end of a buffer is not changed by it (20_memory.md R51, R57). -/

namespace Sys2Proof.Machine

theorem zipIdx_offsets_rise (b : List Byte) (k : Nat) :
    ((b.zipIdx k).map fun p => ((p.2, p.1) : Host.Cell)).Pairwise fun x y => x.1 < y.1 := by
  induction b generalizing k with
  | nil => simp
  | cons x xs ih =>
    simp only [List.zipIdx_cons, List.map_cons, List.pairwise_cons]
    refine ⟨fun y hy => ?_, ih (k + 1)⟩
    obtain ⟨p, hp, rfl⟩ := List.mem_map.mp hy
    exact (List.mk_mem_zipIdx_iff_le_and_getElem?_sub.mp hp).1

/-- Every buffer's cells are in canonical form. -/
theorem Buffer.cells_wf (b : List Byte) : Memory.wf (Buffer.cells b) := zipIdx_offsets_rise b 0

/-- The only writing operation keeps the canonical form. -/
theorem dstAppend_wf (dst : List Byte) (b : Byte) : Memory.wf (Buffer.cells (dstAppend dst b)) :=
  Buffer.cells_wf _

/-- `DstAppend` adds one cell, at the offset that was the length. -/
theorem Buffer.cells_dstAppend (dst : List Byte) (b : Byte) :
    Buffer.cells (dstAppend dst b) = Buffer.cells dst ++ [(dst.length, b)] := by
  simp [Buffer.cells, dstAppend, List.zipIdx_append]

@[simp] theorem dstAppend_length (dst : List Byte) (b : Byte) : (dstAppend dst b).length = dst.length + 1 := by
  simp [dstAppend]

/-- A byte already written reads as before. -/
theorem Buffer.read_dstAppend_of_lt (dst : List Byte) (b : Byte) {off : Nat} (h : off < dst.length) :
    Buffer.read (dstAppend dst b) off = Buffer.read dst off := by
  simp [Buffer.read, dstAppend, List.getElem?_append_left h]

/-- The appended byte reads back at the old length. -/
@[simp] theorem Buffer.read_dstAppend_last (dst : List Byte) (b : Byte) :
    Buffer.read (dstAppend dst b) dst.length = some b := by
  simp [Buffer.read, dstAppend]

end Sys2Proof.Machine
end

