-- ==== Sys2Proof/Laws/Ops.lean ====
section
/-! SUPPORT. What each shared operation of DEC can do, said once: a feed, the consumption of a list of payload positions,
the end of an operation, taking `MalformedInput`, and the unit step. -/

namespace Sys2Proof.Machine

/-! ### Feed -/

@[simp] theorem decFeed_start (v : Sextet) (d : Dec) : (decFeed v d).start = d.start := by
  unfold decFeed; dsimp only; split <;> rfl
@[simp] theorem decFeed_src (v : Sextet) (d : Dec) : (decFeed v d).src = d.src := by
  unfold decFeed; dsimp only; split <;> rfl
@[simp] theorem decFeed_m (v : Sextet) (d : Dec) : (decFeed v d).m = d.m := by
  unfold decFeed; dsimp only; split <;> rfl
@[simp] theorem decFeed_pos (v : Sextet) (d : Dec) : (decFeed v d).pos = d.pos := by
  unfold decFeed; dsimp only; split <;> rfl
@[simp] theorem decFeed_phase (v : Sextet) (d : Dec) : (decFeed v d).phase = d.phase := by
  unfold decFeed; dsimp only; split <;> rfl
@[simp] theorem decFeed_errOff (v : Sextet) (d : Dec) : (decFeed v d).errOff = d.errOff := by
  unfold decFeed; dsimp only; split <;> rfl

/-- A feed that does not fill a byte. -/
theorem decFeed_hold (v : Sextet) (d : Dec) (h : d.nbits < 2) :
    decFeed v d = { d with acc := (d.acc <<< 6) ||| v.toNat, nbits := d.nbits + 6 } := by
  simp [decFeed, show ¬ 8 ≤ d.nbits + 6 by omega]

/-- A feed that fills a byte emits it. -/
theorem decFeed_emit (v : Sextet) (d : Dec) (h : 2 ≤ d.nbits) :
    decFeed v d =
      { d with
        dst := dstAppend d.dst (BitVec.ofNat 8 ((((d.acc <<< 6) ||| v.toNat) >>> (d.nbits - 2)) &&& 0xFF))
        nbits := d.nbits - 2
        acc := ((d.acc <<< 6) ||| v.toNat) &&& ((1 <<< (d.nbits - 2)) - 1) } := by
  simp [decFeed, show 8 ≤ d.nbits + 6 by omega, show d.nbits + 6 - 8 = d.nbits - 2 by omega]

/-! ### Consumption -/

@[simp] theorem decConsume_of_marked (c : Cfg) (v : Sextet) (off : Nat) (d : Dec) :
    decConsume c ⟨c.cont, v⟩ off d = .ok (decFeed v d) := by
  simp [decConsume]

theorem decConsume_of_unmarked {c : Cfg} {p : Payload} (h : p.cm ≠ c.cont) (off : Nat) (d : Dec) :
    decConsume c p off d = .error off := by
  simp [decConsume, h]

/-- Consumption succeeds exactly when every position carries the marker, and then it feeds the fields in order. -/
theorem decConsumeAll_ok_iff (c : Cfg) (pos : Nat) (L : List (Nat × Payload)) (d d' : Dec) :
    decConsumeAll c pos L d = .ok d' ↔
      (∀ e ∈ L, e.2.cm = c.cont) ∧ d' = L.foldl (fun x e => decFeed e.2.d x) d := by
  induction L generalizing d with
  | nil => simp [decConsumeAll, eq_comm]
  | cons e L ih =>
    obtain ⟨j, p⟩ := e
    by_cases h : p.cm = c.cont <;> simp [decConsumeAll, decConsume, h, ih]

/-- Consumption fails exactly at the first position whose marker is missing. -/
theorem decConsumeAll_error_iff (c : Cfg) (pos : Nat) (L : List (Nat × Payload)) (d : Dec) (off : Nat) :
    decConsumeAll c pos L d = .error off ↔
      ∃ e, L.find? (fun e => e.2.cm ≠ c.cont) = some e ∧ off = pos + e.1 := by
  induction L generalizing d with
  | nil => simp [decConsumeAll]
  | cons e L ih =>
    obtain ⟨j, p⟩ := e
    by_cases h : p.cm = c.cont
    · simp [decConsumeAll, decConsume, h, ih]
    · simp [decConsumeAll, decConsume, h, eq_comm]

/-- Feeding any list of fields changes `acc`, `nbits` and the end of `dst` only. -/
theorem foldl_decFeed_frame (L : List (Nat × Payload)) (d : Dec) :
    let d' := L.foldl (fun x e => decFeed e.2.d x) d
    d'.start = d.start ∧ d'.src = d.src ∧ d'.m = d.m ∧ d'.pos = d.pos ∧ d'.phase = d.phase ∧ d'.errOff = d.errOff ∧
      d.dst <+: d'.dst := by
  induction L generalizing d with
  | nil => simp
  | cons e L ih =>
    have h := ih (decFeed e.2.d d)
    simp only [List.foldl_cons, decFeed_start, decFeed_src, decFeed_m, decFeed_pos, decFeed_phase,
      decFeed_errOff] at h ⊢
    obtain ⟨h1, h2, h3, h4, h5, h6, h7⟩ := h
    refine ⟨h1, h2, h3, h4, h5, h6, List.IsPrefix.trans ?_ h7⟩
    unfold decFeed
    dsimp only
    split <;> simp [dstAppend]

/-! ### The end of an operation and the exception -/

@[simp] theorem decAdvance_pos (d : Dec) : (decAdvance d).pos = d.pos + 4 := rfl

@[simp] theorem raiseMalformed_cfg (off : Nat) (s : State) : (raiseMalformed off s).cfg = s.cfg := rfl
@[simp] theorem raiseMalformed_enc (off : Nat) (s : State) : (raiseMalformed off s).enc = s.enc := rfl
@[simp] theorem raiseMalformed_phase (off : Nat) (s : State) : (raiseMalformed off s).dec.phase = .fault := rfl
@[simp] theorem raiseMalformed_errOff (off : Nat) (s : State) : (raiseMalformed off s).dec.errOff = off := rfl
@[simp] theorem raiseMalformed_start (off : Nat) (s : State) : (raiseMalformed off s).dec.start = s.dec.start := rfl

@[simp] theorem decFinish_cfg (s : State) : (decFinish s).cfg = s.cfg := by unfold decFinish; split <;> rfl
@[simp] theorem decFinish_enc (s : State) : (decFinish s).enc = s.enc := by unfold decFinish; split <;> rfl

/-- The end of the unit loop is DONE with the output as it stands, or `MalformedInput` at `pos`. -/
theorem decFinish_cases (s : State) :
    (s.dec.pos = s.dec.m ∧ (decFinish s).dec.phase = .done ∧ (decFinish s).dec.dst = s.dec.dst) ∨
      (s.dec.pos ≠ s.dec.m ∧ decFinish s = raiseMalformed s.dec.pos s) := by
  unfold decFinish
  by_cases h : s.dec.pos = s.dec.m
  · exact .inl ⟨h, by simp [h], by simp [h, decRelease]⟩
  · exact .inr ⟨h, by simp [h]⟩

/-! ### The unit step -/

/-- The unit step always answers a next state: all positions fed and `pos` moved on, or `MalformedInput` at the first
position whose marker is missing. -/
theorem decUnit_cases (L : List (Nat × Payload)) (s : State) :
    ((∀ e ∈ L, e.2.cm = s.cfg.cont) ∧
        decUnit L s = .next (s.setDec (decAdvance (L.foldl (fun x e => decFeed e.2.d x) s.dec)))) ∨
      ∃ e, L.find? (fun e => e.2.cm ≠ s.cfg.cont) = some e ∧
        decUnit L s = .next (raiseMalformed (s.dec.pos + e.1) s) := by
  unfold decUnit
  cases h : decConsumeAll s.cfg s.dec.pos L s.dec with
  | ok d =>
    obtain ⟨hL, rfl⟩ := (decConsumeAll_ok_iff ..).mp h
    exact .inl ⟨hL, rfl⟩
  | error off =>
    obtain ⟨e, he, rfl⟩ := (decConsumeAll_error_iff ..).mp h
    exact .inr ⟨e, he, rfl⟩

/-- Every meaning of `Machine/Units.lean` is a unit step over the positions its variant consumes. -/
theorem decUnit_keeps_enc {L : List (Nat × Payload)} {s t : State} (h : decUnit L s = .next t) :
    t.cfg = s.cfg ∧ t.enc = s.enc := by
  rcases decUnit_cases L s with ⟨-, h'⟩ | ⟨e, -, h'⟩ <;> rw [h'] at h <;> cases h <;> exact ⟨rfl, rfl⟩

end Sys2Proof.Machine
end

