-- ==== Sys2Proof/Laws/PerInstr.lean ====
section
/-! SUPPORT. Statements about every unit as syntax, one lemma per constructor. -/

namespace Sys2Proof.Laws.UnitShape

/-- The encoding of a unit is 4 bytes, lead byte first, whose high nibble is `LEAD_HI` (30_encoding.md R70, R71). -/
def Statement (i : Instr) : Prop :=
  ∀ c : Cfg, ∃ b0 b1 b2 b3 : Byte, encode c i = [b0, b1, b2, b3] ∧ b0.extractLsb' 4 4 = c.leadHi

/-- The high nibble of a lead byte put together from its fields. -/
theorem lead_nibble : ∀ (hi : BitVec 4) (mid tag : BitVec 2), (hi ++ mid ++ tag : Byte).extractLsb' 4 4 = hi := by
  decide

/-- The same with the tag as two single bits. -/
theorem lead_nibble_bits : ∀ (hi : BitVec 4) (mid : BitVec 2) (t1 t0 : BitVec 1),
    (hi ++ mid ++ t1 ++ t0 : Byte).extractLsb' 4 4 = hi := by
  decide

theorem reg (mid : BitVec 2) (tag1 : BitVec 1) (p1 p2 p3 : Payload) : Statement (.reg mid tag1 p1 p2 p3) :=
  fun c => ⟨_, _, _, _, rfl, lead_nibble_bits c.leadHi mid tag1 0#1⟩

theorem tun (mid : BitVec 2) (p1 p2 p3 : Payload) : Statement (.tun mid p1 p2 p3) :=
  fun c => ⟨_, _, _, _, rfl, lead_nibble c.leadHi mid Cfg.tagTun⟩

theorem ncs (mid : BitVec 2) (ign2 : Byte) (ign3 : BitVec 4) (special : BitVec 1) (plane : BitVec 2)
    (flag : BitVec 1) : Statement (.ncs mid ign2 ign3 special plane flag) :=
  fun c => ⟨_, _, _, _, rfl, lead_nibble c.leadHi mid Cfg.tagRsv⟩

theorem tpd1 (mid : BitVec 2) (ign1 : BitVec 7) (p2 p3 : Payload) : Statement (.tpd1 mid ign1 p2 p3) :=
  fun c => ⟨_, _, _, _, rfl, lead_nibble c.leadHi mid Cfg.tagRsv⟩

theorem tpd2 (mid : BitVec 2) (ign1 : BitVec 7) (ign2 : Byte) (p3 : Payload) : Statement (.tpd2 mid ign1 ign2 p3) :=
  fun c => ⟨_, _, _, _, rfl, lead_nibble c.leadHi mid Cfg.tagRsv⟩

end Sys2Proof.Laws.UnitShape
end

