-- ==== Sys2Proof/Laws/Step.lean ====
section
/-! SUPPORT. What a move of each engine, and so a step, can do: one inversion lemma for each. -/

namespace Sys2Proof.Machine

/-- A next state of two moves goes through a next state of the first. -/
theorem andThen_next {o : Outcome} {f : State → Outcome} {t : State} (h : andThen o f = .next t) :
    ∃ u, o = .next u ∧ f u = .next t := by
  cases o with
  | next u => exact ⟨u, rfl, h⟩
  | fault r => cases h
  | refused r => cases h

/-- A unit's meaning is the unit step over the positions its variant consumes. -/
theorem exec_eq_decUnit (i : Instr) (s : State) : exec i s = decUnit (consumedOperands s.cfg i) s := by
  cases i <;> rfl

/-- Every unit answers a next state: all its positions fed and `pos` moved on, or `MalformedInput`. -/
theorem exec_cases {i : Instr} {s t : State} (h : exec i s = .next t) :
    ((∀ e ∈ consumedOperands s.cfg i, e.2.cm = s.cfg.cont) ∧
        t = s.setDec (decAdvance ((consumedOperands s.cfg i).foldl (fun x e => decFeed e.2.d x) s.dec))) ∨
      ∃ e, (consumedOperands s.cfg i).find? (fun e => e.2.cm ≠ s.cfg.cont) = some e ∧
        t = raiseMalformed (s.dec.pos + e.1) s := by
  rw [exec_eq_decUnit] at h
  rcases decUnit_cases (consumedOperands s.cfg i) s with ⟨hL, h'⟩ | ⟨e, he, h'⟩ <;> rw [h'] at h <;> cases h
  · exact .inl ⟨hL, rfl⟩
  · exact .inr ⟨e, he, rfl⟩

/-- What a next state of DEC's move can be: a START taken, a unit executed, a bad lead byte, the end of the loop, or
nothing at all. -/
theorem decMove_cases {s t : State} (h : decMove s = .next t) :
    (∃ src, s.dec.start = some src ∧ s.dec.phase ≠ .run ∧ t = startDec src s) ∨
    (s.dec.start = none ∧ s.dec.phase = .run ∧ s.dec.m ≤ s.dec.src.length ∧ s.dec.pos + 4 ≤ s.dec.m ∧
      ((∃ i rest, decode s.cfg (s.dec.src.drop s.dec.pos) = .ok (i, rest) ∧ exec i s = .next t) ∨
       (∃ e, decode s.cfg (s.dec.src.drop s.dec.pos) = .error e ∧ t = raiseMalformed s.dec.pos s))) ∨
    (s.dec.start = none ∧ s.dec.phase = .run ∧ s.dec.m ≤ s.dec.src.length ∧ s.dec.m < s.dec.pos + 4 ∧
      t = decFinish s) ∨
    (s.dec.start = none ∧ s.dec.phase ≠ .run ∧ t = s) := by
  unfold decMove at h
  split at h
  · cases h
  · rename_i src hst hph
    cases h
    exact .inl ⟨src, hst, hph, rfl⟩
  · rename_i hst hph
    unfold decRun at h
    split at h
    · cases h
    · split at h
      · refine .inr (.inl ⟨hst, hph, by omega, by omega, ?_⟩)
        cases hd : decode s.cfg (s.dec.src.drop s.dec.pos) with
        | ok p => exact .inl ⟨p.1, p.2, rfl, by simpa [hd] using h⟩
        | error e =>
          simp only [hd] at h
          cases h
          exact .inr ⟨e, rfl, rfl⟩
      · cases h
        exact .inr (.inr (.inl ⟨hst, hph, by omega, by omega, rfl⟩))
  · rename_i hst hph
    cases h
    exact .inr (.inr (.inr ⟨hst, hph, rfl⟩))

/-- What a next state of ENC's move can be: a START taken, a unit step, the end of the loop, or nothing at all. -/
theorem encMove_cases {s t : State} (h : encMove s = .next t) :
    (∃ src, s.enc.start = some src ∧ s.enc.phase ≠ .run ∧ t = startEnc src s) ∨
    (s.enc.start = none ∧ s.enc.phase = .run ∧ s.enc.n ≤ s.enc.src.length ∧ s.enc.u < s.enc.units ∧
      t = s.setEnc (encUnitStep s.cfg s.enc)) ∨
    (s.enc.start = none ∧ s.enc.phase = .run ∧ s.enc.n ≤ s.enc.src.length ∧ s.enc.units ≤ s.enc.u ∧
      t = encFinish s) ∨
    (s.enc.start = none ∧ s.enc.phase ≠ .run ∧ t = s) := by
  unfold encMove at h
  split at h
  · cases h
  · rename_i src hst hph
    cases h
    exact .inl ⟨src, hst, hph, rfl⟩
  · rename_i hst hph
    unfold encRun at h
    split at h
    · cases h
    · split at h
      · cases h
        exact .inr (.inl ⟨hst, hph, by omega, by omega, rfl⟩)
      · cases h
        exact .inr (.inr (.inl ⟨hst, hph, by omega, by omega, rfl⟩))
  · rename_i hst hph
    cases h
    exact .inr (.inr (.inr ⟨hst, hph, rfl⟩))

/-- DEC's move leaves ENC and the configuration alone. -/
theorem decMove_keeps_enc {s t : State} (h : decMove s = .next t) : t.enc = s.enc ∧ t.cfg = s.cfg := by
  rcases decMove_cases h with ⟨src, -, -, rfl⟩ | ⟨-, -, -, -, ⟨i, r, -, hx⟩ | ⟨e, -, rfl⟩⟩ | ⟨-, -, -, -, rfl⟩ |
    ⟨-, -, rfl⟩
  · exact ⟨rfl, rfl⟩
  · rcases exec_cases hx with ⟨-, rfl⟩ | ⟨e, -, rfl⟩ <;> exact ⟨rfl, rfl⟩
  · exact ⟨rfl, rfl⟩
  · exact ⟨decFinish_enc s, decFinish_cfg s⟩
  · exact ⟨rfl, rfl⟩

/-- ENC's move leaves DEC and the configuration alone. -/
theorem encMove_keeps_dec {s t : State} (h : encMove s = .next t) : t.dec = s.dec ∧ t.cfg = s.cfg := by
  rcases encMove_cases h with ⟨src, -, -, rfl⟩ | ⟨-, -, -, -, rfl⟩ | ⟨-, -, -, -, rfl⟩ | ⟨-, -, rfl⟩ <;>
    exact ⟨rfl, rfl⟩

/-- A next state of a step is a move of DEC, then a move of ENC. -/
theorem step_cases {s t : State} (h : step s = .next t) : ∃ u, decMove s = .next u ∧ encMove u = .next t :=
  andThen_next h

end Sys2Proof.Machine
end

