-- ==== Sys2Proof/Tests/Slice0.lean ====
section
/-! SUPPORT. The model's own tests. Expected values are from spec/95_test_vectors.md, the worked examples of the rules, or
words written out from spec/30_encoding.md; then one witness per statement that its hypotheses can be met. -/

namespace Sys2Proof.Tests

open Sys2Proof.Machine

/-! ### Helpers -/

/-- Bytes from numbers. -/
def bytes (l : List Nat) : List Byte := l.map (BitVec.ofNat 8)

/-- A marked payload under the decided configuration. -/
def mk (d : Sextet) : Payload := ⟨0b10#2, d⟩

/-- A test of the next state an outcome gives. -/
def nextIs (o : Outcome) (p : State → Bool) : Bool :=
  match o with
  | .next t => p t
  | .fault _ => false
  | .refused _ => false

/-- DEC in RUN at `pos` with the given accumulator and output. -/
def decAt (src : List Byte) (pos acc nbits : Nat) (dst : List Byte) : State :=
  State.reset.setDec { Dec.reset with src, m := src.length, pos, acc, nbits, dst, phase := .run }

/-- ENC just STARTed on a source. -/
def encOn (src : List Byte) : State := startEnc src State.reset

/-- The result of a DECODE run from reset. -/
def decodeRun (src : List Nat) : Option DecResult :=
  match core.run (decodeSteps (bytes src)) (presentStart .dec (bytes src) State.reset) with
  | .next t => decResult t
  | .fault _ => none
  | .refused _ => none

/-- The result of an ENCODE run from reset. -/
def encodeRun (src : List Nat) : Option (List Byte) :=
  match core.run (encodeSteps Cfg.decided (bytes src)) (presentStart .enc (bytes src) State.reset) with
  | .next t => encDst t
  | .fault _ => none
  | .refused _ => none

/-! ### WellFormed: an ill-formed term for each check -/

theorem test_wf_refuses_tpd1_with_ncm : (Instr.tpd1 0 0x41#7 (mk 0) (mk 0)).wf Cfg.decided = false := by decide
theorem test_wf_refuses_tpd2_with_ncm :
    (Instr.tpd2 0 0x41#7 0 (mk 0)).wf { Cfg.decided with ncm := 0x83#8 } = false := by decide
theorem test_accepted_refuses_reg_marker :
    (Instr.reg 0 1 (mk 0) ⟨0b01#2, 0x14⟩ (mk 0)).accepted Cfg.decided = false := by decide
theorem test_accepted_refuses_tun_marker :
    (Instr.tun 0 (mk 0) (mk 0) ⟨0b11#2, 9⟩).accepted Cfg.decided = false := by decide
theorem test_accepted_refuses_tpd1_marker : (Instr.tpd1 0 0x40#7 ⟨0b01#2, 3⟩ (mk 0)).accepted Cfg.decided = false := by
  decide
theorem test_accepted_refuses_tpd2_marker : (Instr.tpd2 0 0x40#7 0 ⟨0b00#2, 0x14⟩).accepted Cfg.decided = false := by
  decide
theorem test_canonical_refuses_nonchar : (Instr.mkReg Cfg.decided 0x0F 0x3F 0x3E).canonical Cfg.decided = false := by
  decide
theorem test_canonical_refuses_tag00 : (Instr.reg 0 0 (mk 0) (mk 0) (mk 0)).canonical Cfg.decided = false := by decide
theorem test_canonical_refuses_ncs_ignored_bits :
    (Instr.ncs 0 0x80#8 0b1100#4 0 3 1).canonical Cfg.decided = false := by decide
theorem test_canonical_refuses_tpd_ignored_bits :
    (Instr.tpd1 0 0x20#7 (mk 0) (mk 0)).canonical Cfg.decided = false ∧
      (Instr.tpd2 0 0x40#7 0#8 (mk 0)).canonical Cfg.decided = false := by decide
theorem test_canonical_accepts_the_notation :
    (Instr.mkReg Cfg.decided 1 2 3).canonical Cfg.decided = true ∧
      (Instr.mkTun Cfg.decided 1 2 3).canonical Cfg.decided = true ∧
      (Instr.mkNcs Cfg.decided 1 3 1).canonical Cfg.decided = true ∧
      (Instr.mkTpd1 Cfg.decided 2 3).canonical Cfg.decided = true ∧
      (Instr.mkTpd2 Cfg.decided 3).canonical Cfg.decided = true := by decide

/-- The position rule of 30_encoding.md R84 (b): an NCS with `special = 0` may stand anywhere, one with `special = 1` only
last, a REG only before the last unit and a TUN only as the last. -/
theorem test_positions_of_canonical_units :
    lastUnit (Instr.mkNcs Cfg.decided 0 3 1) = true ∧ innerUnit (Instr.mkNcs Cfg.decided 0 3 1) = true ∧
      lastUnit (Instr.mkNcs Cfg.decided 1 3 1) = true ∧ innerUnit (Instr.mkNcs Cfg.decided 1 3 1) = false ∧
      lastUnit (Instr.mkReg Cfg.decided 1 2 3) = false ∧ innerUnit (Instr.mkReg Cfg.decided 1 2 3) = true ∧
      lastUnit (Instr.mkTun Cfg.decided 1 2 3) = true ∧ innerUnit (Instr.mkTun Cfg.decided 1 2 3) = false := by decide

/-! ### Decoding: words written out from 30_encoding.md R76 to R80 and R86 -/

-- hi 1111, mid 00, tag 10, then 10 d1, 10 d2, 10 d3
theorem test_decode_reg : decodeTableWord 32 0b11110010100000011000001010000011 =
    some (.reg 0b00#2 1#1 ⟨0b10#2, 1⟩ ⟨0b10#2, 2⟩ ⟨0b10#2, 3⟩) := by decide
-- mid 11, tag 00 (the alias of R86), markers 00 01 11
theorem test_decode_reg_alias : decodeTableWord 32 0b11111100000000010100001011000011 =
    some (.reg 0b11#2 0#1 ⟨0b00#2, 1⟩ ⟨0b01#2, 2⟩ ⟨0b11#2, 3⟩) := by decide
-- tag 01
theorem test_decode_tun : decodeTableWord 32 0b11110101100000011000001010000011 =
    some (.tun 0b01#2 ⟨0b10#2, 1⟩ ⟨0b10#2, 2⟩ ⟨0b10#2, 3⟩) := by decide
-- tag 11, NCM, ignored b2, ignored 1111, special 0, plane 11, flag 1
theorem test_decode_ncs : decodeTableWord 32 0b11110011100000101111111111110111 =
    some (.ncs 0 0xFF#8 0b1111#4 0#1 0b11#2 1#1) := by decide
-- tag 11, b1 1100000 0
theorem test_decode_tpd1 : decodeTableWord 32 0b11110011110000001000001110000000 =
    some (.tpd1 0 0b1100000#7 ⟨0b10#2, 3⟩ ⟨0b10#2, 0⟩) := by decide
-- tag 11, b1 0100000 1, b2 ignored
theorem test_decode_tpd2 : decodeTableWord 32 0b11110011010000011111111110010100 =
    some (.tpd2 0 0b0100000#7 0xFF#8 ⟨0b10#2, 0x14⟩) := by decide
theorem test_decode_refuses_lead : decode Cfg.decided (bytes [0xE2, 0x80, 0x80, 0x80]) = .error .lead := by decide
theorem test_decode_refuses_short : decode Cfg.decided (bytes [0xF2, 0x80, 0x80]) = .error (.short 3) := by decide
theorem test_encode_ncs : encode Cfg.decided (Instr.mkNcs Cfg.decided 1 3 1) = bytes [0xF3, 0x82, 0x80, 0x8F] := by
  decide

/-! ### Units: the worked examples of 41_decode.md R134 to R140 -/

theorem test_reg_example : nextIs (exec (Instr.mkReg Cfg.decided 0x10 0x14 0x09) (decAt [] 0 0 0 [])) (fun t =>
    t.dec.dst == bytes [0x41, 0x42] && t.dec.acc == 0b01 && t.dec.nbits == 2 && t.dec.pos == 4) = true := by decide
theorem test_tun_example : nextIs (exec (Instr.mkTun Cfg.decided 0x10 0x14 0x08) (decAt [] 0 0 0 [])) (fun t =>
    t.dec.dst == bytes [0x41, 0x42] && t.dec.acc == 0 && t.dec.nbits == 2) = true := by decide
theorem test_ncs_example : nextIs (exec (Instr.mkNcs Cfg.decided 0 3 1) (decAt [] 0 0 0 [])) (fun t =>
    t.dec.dst == bytes [0xFF, 0xFF] && t.dec.acc == 0b11 && t.dec.nbits == 2) = true := by decide
theorem test_tpd1_example : nextIs (exec (Instr.mkTpd1 Cfg.decided 0x03 0x00) (decAt [] 0 0b01 2 [])) (fun t =>
    t.dec.dst == bytes [0x43] && t.dec.acc == 0 && t.dec.nbits == 6) = true := by decide
theorem test_tpd2_example : nextIs (exec (Instr.mkTpd2 Cfg.decided 0x14) (decAt [] 0 0b0100 4 [])) (fun t =>
    t.dec.dst == bytes [0x45] && t.dec.acc == 0 && t.dec.nbits == 2) = true := by decide

/-! ### Whole operations: vectors of 95_test_vectors.md -/

theorem test_encode_v_e5 : encodeRun [0x41, 0x42, 0x43, 0x44, 0x45] =
    some (bytes [0xF2, 0x90, 0x94, 0x89, 0xF2, 0x83, 0x91, 0x84, 0xF3, 0x81, 0x80, 0x94]) := by decide
theorem test_encode_v_e3 : encodeRun [0x41, 0x42, 0x43] =
    some (bytes [0xF2, 0x90, 0x94, 0x89, 0xF3, 0x80, 0x83, 0x80]) := by decide
theorem test_encode_v_e2 : encodeRun [0x41, 0x42] = some (bytes [0xF1, 0x90, 0x94, 0x88]) := by decide
theorem test_encode_v_e0 : encodeRun [] = some [] := by decide
theorem test_encode_v_n1 : encodeRun [0xFF, 0xFF, 0xFF, 0xFF, 0xFF, 0xFF, 0xFF, 0xFF, 0xFF] =
    some (bytes [0xF3, 0x82, 0x80, 0x87, 0xF3, 0x82, 0x80, 0x87, 0xF3, 0x82, 0x80, 0x87, 0xF3, 0x82, 0x80, 0x8F]) := by
  decide
theorem test_encode_v_n5 : encodeRun [0x0F, 0xFF, 0xFF] =
    some (bytes [0xF2, 0x83, 0xBF, 0xBF, 0xF3, 0x80, 0xBF, 0x80]) := by decide
theorem test_decode_v_d17 : decodeRun [0xF1, 0x90, 0x94, 0x88, 0xF1, 0x90, 0x94, 0x88] =
    some (.ok (bytes [0x41, 0x42, 0x10, 0x50])) := by decide
theorem test_decode_v_d12 : decodeRun [0xF3, 0x41, 0xFF, 0x94] = some (.ok []) := by decide
theorem test_decode_v_d16 : decodeRun [0xF3, 0x82, 0x00, 0x07] = some (.ok (bytes [0xFF, 0xFF])) := by decide
theorem test_decode_program_p4 :
    decodeRun [0xF0, 0x90, 0x94, 0x89, 0xF1, 0x90, 0x94, 0x88, 0xF3, 0x41, 0xFF, 0x94] =
      some (.ok (bytes [0x41, 0x42, 0x50, 0x50, 0x85])) := by decide
theorem test_decode_program_p5 :
    decodeRun [0xF2, 0x90, 0x94, 0x89, 0xF3, 0x80, 0x43, 0x80, 0xF2, 0x80, 0x80, 0x80] = some (.malformed 6) := by
  decide
theorem test_decode_v_m10 : decodeRun [0xF2, 0x90, 0x94, 0x89, 0xF3, 0x80] = some (.malformed 4) := by decide
theorem test_decode_v_m13 : decodeRun [0xE0, 0x80, 0x80, 0x80, 0xF2] = some (.malformed 0) := by decide
theorem test_decode_v_m14 : decodeRun [0xF3, 0x82, 0, 0, 0xF2, 0x90, 0x94, 0x09] = some (.malformed 7) := by decide

/-- The table's word for a TUN of zeros runs as the first unit after reset: its payload byte 1 lacks the marker. -/
theorem test_fetch_word_after_reset :
    nextIs (step (State.reset.withFetchWord 32 0xF1000000)) (fun t => decResult t == some (.malformed 1)) = true := by
  decide

/-! ### Witnesses: states and operands that meet the hypotheses of the statements -/

/-- A DEC in the middle of "ABC": one unit done, the next at 4 (program P1). -/
def midDec : State := decAt (bytes [0xF2, 0x90, 0x94, 0x89, 0xF3, 0x80, 0x83, 0x80]) 4 0b01 2 (bytes [0x41, 0x42])

/-- An ENC in the middle of "ABC": one unit done (program P1). -/
def midEnc : State :=
  State.reset.setEnc
    { (encStarted Cfg.decided (bytes [0x41, 0x42, 0x43])) with
      u := 1, ip := 3, acc := 0b000011, nbits := 6, dst := bytes [0xF2, 0x90, 0x94, 0x89] }

theorem witness_DecodeInvertsEncode : (Instr.tpd2 3 0x20#7 0xFF#8 (mk 0x14)).wf Cfg.decided = true := by decide
theorem witness_EncodeInvertsDecode :
    decode Cfg.decided (bytes [0xF2, 0x90, 0x94, 0x89, 0xF3]) = .ok (Instr.mkReg Cfg.decided 0x10 0x14 9, bytes [0xF3]) := by
  decide
theorem witness_DispatchSelectsOneVariant : (0xFE#8).extractLsb' 4 4 = Cfg.decided.leadHi := by decide
theorem witness_OpTablePairsMeanAcceptedAndCanonical :
    (opRow 0xF3828087#32).map OpRow.mnemonic = some "NCS" ∧
      decodeTableWord 32 (0xF3828087#32).toNat = some (Instr.mkNcs Cfg.decided 0 3 1) := by decide
theorem witness_RegAndTunFeedEighteenBits :
    (mk 1).cm = midDec.cfg.cont ∧ (⟨0b01#2, 1⟩ : Payload).cm ≠ midDec.cfg.cont ∧ midDec.dec.nbits ≤ 7 ∧
      midDec.dec.acc < 2 ^ midDec.dec.nbits := by decide
theorem witness_RegAndTunFeedEighteenBits_full :
    let s := decAt [] 0 127 7 []
    s.dec.nbits ≤ 7 ∧ s.dec.acc < 2 ^ s.dec.nbits := by decide
theorem witness_NcsFeedsTheReconstructedBits : midDec.dec.nbits ≤ 7 ∧ midDec.dec.acc < 2 ^ midDec.dec.nbits := by decide
theorem witness_Tpd1FeedsTwelveBits :
    (mk 3).cm = midDec.cfg.cont ∧ (⟨0b01#2, 3⟩ : Payload).cm ≠ midDec.cfg.cont ∧
      midDec.dec.acc < 2 ^ midDec.dec.nbits := by decide
theorem witness_Tpd2FeedsSixBits :
    (mk 0x14).cm = midDec.cfg.cont ∧ (⟨0b00#2, 0x14⟩ : Payload).cm ≠ midDec.cfg.cont ∧
      midDec.dec.acc < 2 ^ midDec.dec.nbits := by decide
theorem witness_AcceptedUnitFrame :
    (Instr.tpd2 0 0x20#7 0xFF#8 (mk 0x14)).accepted midDec.cfg = true ∧ midDec.dec.nbits ≤ 7 := by decide
theorem witness_RejectedUnitIsMalformed :
    (Instr.reg 0 1 (mk 1) ⟨0b01#2, 1⟩ ⟨0b00#2, 1⟩).accepted midDec.cfg = false := by decide
theorem witness_IgnoredBitsHaveNoEffect :
    consumedOperands midDec.cfg (.ncs 0 0 0 0 3 1) = consumedOperands midDec.cfg (.ncs 3 0xFF 15 1 3 1) := by decide
theorem witness_FeedAppendsSixBits :
    (decAt [] 0 1 1 []).dec.acc < 2 ^ 1 ∧ (decAt [] 0 3 2 []).dec.acc < 2 ^ 2 := by decide
theorem witness_StepRunsTheDecodedUnit :
    midDec.dec.start = none ∧ midDec.dec.phase = .run ∧ midDec.dec.m ≤ midDec.dec.src.length ∧
      midDec.dec.pos + 4 ≤ midDec.dec.m ∧
      decode midDec.cfg (midDec.dec.src.drop midDec.dec.pos) = .ok (Instr.mkTpd1 Cfg.decided 3 0, []) ∧
      midDec.enc.start = none ∧ midDec.enc.phase ≠ .run := by decide
theorem witness_FetchWordIsRunNext :
    decode State.reset.cfg (tableBytes 32 0xF2909489) = .ok (Instr.mkReg Cfg.decided 0x10 0x14 9, []) ∧
      State.reset.enc.start = none ∧ State.reset.enc.phase ≠ .run := by decide
theorem witness_BadLeadByteIsMalformed :
    let s := decAt (bytes [0xE2, 0x80, 0x80, 0x80]) 0 0 0 []
    s.dec.start = none ∧ s.dec.phase = .run ∧ s.dec.m ≤ s.dec.src.length ∧ s.dec.pos + 4 ≤ s.dec.m ∧
      Buffer.read s.dec.src s.dec.pos = some 0xE2#8 ∧ (0xE2#8).extractLsb' 4 4 ≠ s.cfg.leadHi := by decide
theorem witness_EndOfStream_done :
    let s := decAt (bytes [0xF3, 0x81, 0x80, 0x80]) 4 0 6 []
    s.dec.start = none ∧ s.dec.phase = .run ∧ s.dec.m < s.dec.pos + 4 ∧ s.dec.pos = s.dec.m := by decide
theorem witness_EndOfStream_malformed :
    let s := decAt (bytes [0xF2, 0x90, 0x94]) 0 0 0 []
    s.dec.start = none ∧ s.dec.phase = .run ∧ s.dec.m < s.dec.pos + 4 ∧ s.dec.pos ≠ s.dec.m := by decide
theorem witness_StartSetsTheStartValues :
    let s := presentStart .dec [] (presentStart .enc (bytes [1, 2]) State.reset)
    s.enc.start = some (bytes [1, 2]) ∧ s.enc.phase ≠ .run ∧ s.dec.start = some [] ∧ s.dec.phase ≠ .run := by decide
theorem witness_StartInRunIsRefused :
    (presentStart .dec [] midDec).dec.start = some [] ∧ (presentStart .dec [] midDec).dec.phase = .run ∧
      (presentStart .enc [] midEnc).enc.start = some [] ∧ (presentStart .enc [] midEnc).enc.phase = .run := by decide
theorem witness_StepKeepsTheInvariant_dec : Inv midDec ∧ nextIs (step midDec) (fun t => t.dec.phase == .run) = true := by
  decide
theorem witness_StepKeepsTheInvariant_enc : Inv midEnc ∧ nextIs (step midEnc) (fun t => t.enc.u == 2) = true := by decide
theorem witness_StepAlwaysAnswers :
    Inv midDec ∧ midDec.dec.start = none ∧ midDec.enc.start = none ∧ midDec.dec.phase = .run := by decide
theorem witness_OnlyStartAndEndChangeThePhase :
    nextIs (step (presentStart .dec [] State.reset)) (fun t => t.dec.phase == .run) = true ∧
      nextIs (step (decAt [] 0 0 0 [])) (fun t => t.dec.phase == .done) = true ∧
      nextIs (step (decAt (bytes [0]) 0 0 0 [])) (fun t => t.dec.phase == .fault) = true := by decide
theorem witness_SourceIsImmutableAndOutputAppends :
    nextIs (step midDec) (fun t => t.dec.phase == .run && t.dec.dst == bytes [0x41, 0x42, 0x43]) = true ∧
      nextIs (step midEnc) (fun t => t.enc.phase == .run) = true := by decide
theorem witness_FieldsFitTheirWidths :
    Inv midEnc ∧ midEnc.enc.phase = .run ∧ 1 ≤ midEnc.enc.n ∧ FitsLenW 5 midEnc.enc.n ∧
      Inv midDec ∧ midDec.dec.phase = .run ∧ midDec.dec.m < 2 ^ 4 := by
  and_intros <;> decide
theorem witness_SlotStepTakesTheOldestBits :
    midEnc.enc.nbits ≤ 7 ∧ midEnc.enc.acc < 2 ^ midEnc.enc.nbits ∧ 6 ≤ midEnc.enc.nbits ∧
      (encStarted Cfg.decided []).nbits < 6 ∧ (encStarted Cfg.decided []).acc < 2 ^ 0 := by decide
theorem witness_FinalUnitIsFormedByRemainder :
    (12 ≤ 12 ∧ 12 ≤ 17) ∧ (6 ≤ 6 ∧ 6 < 12) ∧ (6 ≤ 11 ∧ 11 < 12) ∧ (0 < 1 ∧ 1 < 6) ∧ (0 < 5 ∧ 5 < 6) ∧ ¬ 12 ≤ 11 := by
  decide
theorem witness_PaddedUnitsNeverCollide :
    12 ≤ 8 * (bytes [0x41, 0x42]).length % 18 ∧ 0 + 1 = unitCount Cfg.decided (bytes [0x41, 0x42]).length := by decide
theorem witness_SubstitutionLosesNothing :
    Cfg.decided.Legal ∧
      collides Cfg.decided (naturalByte Cfg.decided 0x2F) (naturalByte Cfg.decided 0x3F) (naturalByte Cfg.decided 0x3E) =
        true ∧
      collides Cfg.decided 0x8F#8 0xBF#8 0xBD#8 = false := by decide
theorem witness_EncodeMakesItsUnitsInOrder :
    ReadyEnc midDec ∧ 2 ≤ unitCount midDec.cfg (bytes [0x41, 0x42, 0x43]).length := by decide
theorem witness_EncodeMatchesTheClosedForm : ReadyEnc State.reset ∧ ReadyEnc midDec := by
  and_intros <;> decide
theorem witness_OverrunReadsAreAtMostTwo : Cfg.decided.emptyUnits = 0 := by decide
theorem witness_EncodeResultIsCanonical : Cfg.decided.Legal := by decide
theorem witness_EmittedUnitsAvoidNoncharacters : Cfg.decided.MarkedNcm := by decide
theorem witness_EmptyInputUnderBothReadings :
    ({ Cfg.decided with emptyUnits := 0 } : Cfg).emptyUnits = 0 ∧
      ({ Cfg.decided with emptyUnits := 1 } : Cfg).emptyUnits = 1 := by decide
theorem witness_DecidedUnitsAreUtf8 : (Instr.mkTpd2 Cfg.decided 0x14).canonical Cfg.decided = true := by decide
theorem witness_DecodeMatchesTheOnePass : ReadyDec State.reset ∧ ReadyDec midEnc := by
  and_intros <;> decide
theorem witness_DecodeEmitsThePayloadStream :
    ReadyDec State.reset ∧ decodeRun [0xF2, 0x90, 0x94, 0x89, 0xF3, 0x80, 0x83, 0x80] =
      some (.ok (bytes [0x41, 0x42, 0x43])) := by decide
theorem witness_DecodeOfEncodeIsTheInput :
    ReadyEnc State.reset ∧ ReadyDec State.reset ∧ State.reset.cfg.Legal ∧ State.reset.cfg.emptyUnits = 0 := by
  and_intros <;> decide
theorem witness_ConcatenatedResultsDecodeTogether :
    Cfg.decided.Legal ∧ Cfg.decided.emptyUnits = 0 ∧ (bytes [1, 2, 3, 4, 5, 6, 7, 8, 9]).length % 9 = 0 := by decide
theorem witness_EnginesShareNothing :
    midDec.cfg = State.reset.cfg ∧ midDec.enc = State.reset.enc ∧ nextIs (step midDec) (fun _ => true) = true ∧
      nextIs (step State.reset) (fun _ => true) = true := by decide
theorem witness_ResultsDoNotDependOnHistory :
    ReadyDec State.reset ∧ ReadyDec midEnc ∧ State.reset.cfg = midEnc.cfg ∧ ReadyEnc State.reset ∧ ReadyEnc midDec := by
  and_intros <;> decide

end Sys2Proof.Tests
end

/-! PROOFS. The scope claims: the residue table (00_scope.md R15) and the field widths (R14, 10_state.md R22 to R24). -/

namespace Sys2Proof.Machine

/-! ### The final unit's class -/

theorem formFinal_of_tun (c : Cfg) {r : Nat} (h : r = 0 ∨ 12 ≤ r) (p1 p2 p3 : Byte) :
    formFinal c r p1 p2 p3 = formTun p1 p2 p3 := by
  simp [formFinal, h]

theorem formFinal_of_tpd1 (c : Cfg) {r : Nat} (hlo : 6 ≤ r) (hhi : r < 12) (p1 p2 p3 : Byte) :
    formFinal c r p1 p2 p3 = formTpd1 c p1 p2 := by
  simp [formFinal, hlo, show ¬ (r = 0 ∨ 12 ≤ r) by omega]

theorem formFinal_of_tpd2 (c : Cfg) {r : Nat} (hlo : 0 < r) (hhi : r < 6) (p1 p2 p3 : Byte) :
    formFinal c r p1 p2 p3 = formTpd2 c p1 := by
  simp [formFinal, show ¬ (r = 0 ∨ 12 ≤ r) by omega, show ¬ 6 ≤ r by omega]

/-- The remainder of the bit length depends on `n mod 9` only, for 8·9 is a multiple of 18. -/
theorem residue_eq_residue_mod_nine (n : Nat) : 8 * n % 18 = 8 * (n % 9) % 18 := by omega

theorem residue_table : ∀ k < 9, 8 * k % 18 = [0, 8, 16, 6, 14, 4, 12, 2, 10].getD k 0 := by decide

/-- Settles O33: the residue depends on `n mod 9` only, and each class of `n mod 9` falls in one range of the remainder. -/
theorem residueTableHolds : Obligations.ResidueTableHolds := by
  intro c n p1 p2 p3
  refine ⟨?_, ?_⟩
  · rw [residue_eq_residue_mod_nine]
    exact residue_table _ (Nat.mod_lt _ (by decide))
  · split
    next => exact formFinal_of_tun c (by omega) p1 p2 p3
    next =>
      split
      next => exact formFinal_of_tpd1 c (by omega) (by omega) p1 p2 p3
      next => exact formFinal_of_tpd2 c (by omega) (by omega) p1 p2 p3

/-! ### Field widths under the invariant -/

/-- Between units ENC holds at most 6 bits: it has pulled no byte beyond those its slots needed (10_state.md R24). -/
theorem EncInv.nbits_le_six {c : Cfg} {e : Enc} (h : EncInv c e) (hrun : e.phase = .run) : e.nbits ≤ 6 := by
  obtain ⟨-, -, -, -, -, hip, hbits, -, -⟩ := h.1 hrun
  omega

/-- DEC has emitted no more bytes than it has read: a unit of 4 bytes feeds at most 18 bits (41_decode.md R148). -/
theorem DecInv.dst_length_le_pos {d : Dec} (h : DecInv d) (hrun : d.phase = .run) : d.dst.length ≤ d.pos := by
  obtain ⟨-, -, -, -, -, -, hfed⟩ := h hrun
  omega

/-- An accumulator that holds no bit above its count fits 13 bits when the count is at most 13. -/
theorem acc_fits_of_nbits_le {acc nbits : Nat} (h : acc < 2 ^ nbits) (hle : nbits ≤ 13) : acc < 2 ^ 13 :=
  h.trans_le (Nat.pow_le_pow_right (by decide) hle)

/-- The widths of ENC (10_state.md R22): every length is at most the output length `4·U` or the bit length `8·n`. -/
theorem EncInv.fields_fit {c : Cfg} {e : Enc} {w : Nat} (h : EncInv c e) (hrun : e.phase = .run) (hn : 1 ≤ e.n)
    (hfit : FitsLenW w e.n) :
    e.n < 2 ^ w ∧ e.total < 2 ^ w ∧ e.units < 2 ^ w ∧ e.r < 2 ^ 5 ∧ e.u < 2 ^ w ∧ e.ip < 2 ^ w ∧ e.acc < 2 ^ 13 ∧
      e.nbits < 2 ^ 4 ∧ e.dst.length < 2 ^ w := by
  have hheld := h.nbits_le_six hrun
  obtain ⟨-, htotal, hunits, hr, hu, hip, -, hacc, hdst⟩ := h.1 hrun
  obtain ⟨hbits, hout⟩ := hfit
  have hU : e.units = (8 * e.n + 17) / 18 := hunits.trans (unitCount_pos c (by omega))
  have hpulled : e.ip ≤ 4 * e.units := by omega
  refine ⟨?_, ?_, ?_, ?_, ?_, ?_, acc_fits_of_nbits_le hacc (by omega), ?_, ?_⟩ <;> omega

/-- The widths of DEC (10_state.md R23): every length is at most the input length. -/
theorem DecInv.fields_fit {d : Dec} {w : Nat} (h : DecInv d) (hrun : d.phase = .run) (hm : d.m < 2 ^ w) :
    d.pos < 2 ^ w ∧ d.acc < 2 ^ 13 ∧ d.nbits < 2 ^ 4 ∧ d.dst.length < 2 ^ w := by
  have hout := h.dst_length_le_pos hrun
  obtain ⟨-, -, hpos, hheld, hacc, -, -⟩ := h hrun
  exact ⟨by omega, acc_fits_of_nbits_le hacc (by omega), by omega, by omega⟩

/-- Settles O30: the invariant bounds the bits held, and the lengths by the output of ENC and the input of DEC. -/
theorem fieldsFitTheirWidths : Obligations.FieldsFitTheirWidths := fun _ _ ⟨henc, hdec⟩ =>
  ⟨fun hrun hn hfit => EncInv.fields_fit henc hrun hn hfit, fun hrun hm => DecInv.fields_fit hdec hrun hm⟩

end Sys2Proof.Machine

/-! PROOFS. The state claims (10_state.md): what START sets (R31), the phases (R26, R167), the configuration (R32), the
invariant of a run (R22 to R25), and that neither the other engine nor the past has a part in a result (R20, R21). -/

namespace Sys2Proof.Machine

/-! ### Moves, by START port and phase -/

theorem decMove_of_start {s : State} {src : List Byte} (hst : s.dec.start = some src) (hph : s.dec.phase ≠ .run) :
    decMove s = .next (startDec src s) := by
  unfold decMove
  split <;> simp_all

theorem decMove_of_running {s : State} (hst : s.dec.start = none) (hph : s.dec.phase = .run) :
    decMove s = decRun s := by
  simp [decMove, hst, hph]

theorem decMove_of_waiting {s : State} (hst : s.dec.start = none) (hph : s.dec.phase ≠ .run) :
    decMove s = .next s := by
  unfold decMove
  split <;> simp_all

theorem encMove_of_start {s : State} {src : List Byte} (hst : s.enc.start = some src) (hph : s.enc.phase ≠ .run) :
    encMove s = .next (startEnc src s) := by
  unfold encMove
  split <;> simp_all

theorem encMove_of_waiting {s : State} (hst : s.enc.start = none) (hph : s.enc.phase ≠ .run) :
    encMove s = .next s := by
  unfold encMove
  split <;> simp_all

/-- Settles O21: the move that takes a START puts the engine in its start-of-operation state. -/
theorem startSetsTheStartValues : Obligations.StartSetsTheStartValues := by
  intro s src
  refine ⟨fun hst hph => ⟨_, encMove_of_start hst hph, ?_⟩, fun hst hph => ⟨_, decMove_of_start hst hph, ?_⟩⟩
  · and_intros <;> rfl
  · and_intros <;> rfl

/-! ### The fields of a unit, fed in order -/

/-- The engine after the data fields of all the given payload positions have been fed (41_decode.md R142). -/
abbrev decFeedAll (L : List (Nat × Payload)) (d : Dec) : Dec := L.foldl (fun x e => decFeed e.2.d x) d

/-- A feed lengthens what has been emitted and is still held by 6 bits. -/
theorem decFeed_fedBits (v : Sextet) (d : Dec) :
    8 * (decFeed v d).dst.length + (decFeed v d).nbits = 8 * d.dst.length + d.nbits + 6 := by
  by_cases h : d.nbits < 2
  · simp only [decFeed_hold v d h]; omega
  · simp only [decFeed_emit v d (by omega), dstAppend_length]; omega

theorem decFeed_nbits_le {v : Sextet} {d : Dec} (h : d.nbits ≤ 7) : (decFeed v d).nbits ≤ 7 := by
  by_cases hn : d.nbits < 2
  · simp only [decFeed_hold v d hn]; omega
  · simp only [decFeed_emit v d (by omega)]; omega

/-- Masking with `2^k - 1` leaves nothing above `k` bits. -/
theorem and_mask_lt (a k : Nat) : a &&& ((1 <<< k) - 1) < 2 ^ k := by
  rw [Nat.one_shiftLeft, Nat.and_two_pow_sub_one_eq_mod]
  exact Nat.mod_lt _ (Nat.two_pow_pos k)

theorem decFeed_acc_lt {v : Sextet} {d : Dec} (h : d.acc < 2 ^ d.nbits) :
    (decFeed v d).acc < 2 ^ (decFeed v d).nbits := by
  by_cases hn : d.nbits < 2
  · rw [decFeed_hold v d hn]
    refine Nat.or_lt_two_pow ?_ (v.isLt.trans_le (Nat.pow_le_pow_right (by decide) (Nat.le_add_left 6 _)))
    rw [Nat.shiftLeft_eq, Nat.pow_add]
    exact Nat.mul_lt_mul_of_pos_right h (by decide)
  · rw [decFeed_emit v d (by omega)]
    exact and_mask_lt ..

theorem decFeedAll_fedBits (L : List (Nat × Payload)) (d : Dec) :
    8 * (decFeedAll L d).dst.length + (decFeedAll L d).nbits = 8 * d.dst.length + d.nbits + 6 * L.length := by
  induction L generalizing d with
  | nil => rfl
  | cons e L ih =>
    have hfeed := decFeed_fedBits e.2.d d
    have hrest := ih (decFeed e.2.d d)
    simp only [decFeedAll, List.foldl_cons, List.length_cons] at hrest ⊢
    omega

theorem decFeedAll_bounds (L : List (Nat × Payload)) {d : Dec} (hn : d.nbits ≤ 7) (ha : d.acc < 2 ^ d.nbits) :
    (decFeedAll L d).nbits ≤ 7 ∧ (decFeedAll L d).acc < 2 ^ (decFeedAll L d).nbits := by
  induction L generalizing d with
  | nil => exact ⟨hn, ha⟩
  | cons e L ih => exact ih (decFeed_nbits_le hn) (decFeed_acc_lt ha)

/-- No unit feeds more than three fields (41_decode.md R148). -/
theorem consumedOperands_length_le (c : Cfg) (i : Instr) : (consumedOperands c i).length ≤ 3 := by
  cases i <;> simp [consumedOperands, ncsOperands, allOperands, skip1Operands, skip2Operands]

/-! ### What a move can do to its engine -/

/-- DEC after the unit step on a unit it accepts (41_decode.md R131). -/
abbrev decUnitDone (c : Cfg) (i : Instr) (d : Dec) : Dec := decAdvance (decFeedAll (consumedOperands c i) d)

/-- The end of the unit loop leaves RUN. -/
theorem decFinish_phase (s : State) : (decFinish s).dec.phase = .done ∨ (decFinish s).dec.phase = .fault := by
  rcases decFinish_cases s with ⟨-, h, -⟩ | ⟨-, h⟩
  · exact .inl h
  · exact .inr (by rw [h, raiseMalformed_phase])

/-- A move of a running DEC does a unit, or ends the operation. -/
theorem decMove_of_run_cases {s t : State} (hrun : s.dec.phase = .run) (h : decMove s = .next t) :
    (s.dec.pos + 4 ≤ s.dec.m ∧ ∃ i, t.dec = decUnitDone s.cfg i s.dec) ∨
      t.dec.phase = .done ∨ t.dec.phase = .fault := by
  rcases decMove_cases h with ⟨_, -, hph, -⟩ | ⟨-, -, -, hpos, ⟨i, _, -, hx⟩ | ⟨_, -, rfl⟩⟩ | ⟨-, -, -, -, rfl⟩ |
    ⟨-, hph, -⟩
  · exact absurd hrun hph
  · rcases exec_cases hx with ⟨-, rfl⟩ | ⟨_, -, rfl⟩
    · exact .inl ⟨hpos, i, rfl⟩
    · exact .inr (.inr rfl)
  · exact .inr (.inr rfl)
  · exact .inr (decFinish_phase s)
  · exact absurd hrun hph

/-- A unit DEC accepts changes `pos`, `acc`, `nbits` and the end of `dst` only. -/
theorem decUnitDone_frame (c : Cfg) (i : Instr) (d : Dec) :
    (decUnitDone c i d).src = d.src ∧ (decUnitDone c i d).m = d.m ∧ (decUnitDone c i d).pos = d.pos + 4 ∧
      (decUnitDone c i d).phase = d.phase ∧ (decUnitDone c i d).errOff = d.errOff := by
  obtain ⟨-, hsrc, hm, hpos, hph, herr, -⟩ := foldl_decFeed_frame (consumedOperands c i) d
  exact ⟨hsrc, hm, congrArg (· + 4) hpos, hph, herr⟩

/-- A move in RUN never leads to IDLE (10_state.md R26). -/
theorem decMove_of_run_phase {s t : State} (hrun : s.dec.phase = .run) (h : decMove s = .next t) :
    t.dec.phase ≠ .idle := by
  rcases decMove_of_run_cases hrun h with ⟨-, i, ht⟩ | ht | ht
  · obtain ⟨-, -, -, hph, -⟩ := decUnitDone_frame s.cfg i s.dec
    simp [ht, hph, hrun]
  · simp [ht]
  · simp [ht]

/-- DEC out of RUN takes the START presented, or keeps every field. -/
theorem decMove_of_not_run_cases {s t : State} (hrun : s.dec.phase ≠ .run) (h : decMove s = .next t) :
    (∃ src, s.dec.start = some src ∧ t.dec = decStarted s.draw src) ∨ (s.dec.start = none ∧ t.dec = s.dec) := by
  rcases decMove_cases h with ⟨src, hst, -, rfl⟩ | ⟨-, hph, -⟩ | ⟨-, hph, -⟩ | ⟨hst, -, rfl⟩
  · exact .inl ⟨src, hst, rfl⟩
  · exact absurd hph hrun
  · exact absurd hph hrun
  · exact .inr ⟨hst, rfl⟩

/-- A move of a running ENC does a unit, or with none left ends the operation with its output as it stands. -/
theorem encMove_of_run_cases {s t : State} (hrun : s.enc.phase = .run) (h : encMove s = .next t) :
    (s.enc.u < s.enc.units ∧ t.enc = encUnitStep s.cfg s.enc) ∨
      (s.enc.units ≤ s.enc.u ∧ t.enc.start = s.enc.start ∧ t.enc.phase = .done ∧ t.enc.dst = s.enc.dst) := by
  rcases encMove_cases h with ⟨_, -, hph, -⟩ | ⟨-, -, -, hu, rfl⟩ | ⟨-, -, -, hu, rfl⟩ | ⟨-, hph, -⟩
  · exact absurd hrun hph
  · exact .inl ⟨hu, rfl⟩
  · exact .inr ⟨hu, rfl, encFinish_phase s, encFinish_dst s⟩
  · exact absurd hrun hph

/-- A move in RUN never leads to IDLE (10_state.md R26). -/
theorem encMove_of_run_phase {s t : State} (hrun : s.enc.phase = .run) (h : encMove s = .next t) :
    t.enc.phase ≠ .idle := by
  rcases encMove_of_run_cases hrun h with ⟨-, ht⟩ | ⟨-, -, ht, -⟩
  · obtain ⟨-, -, -, -, -, -, -, hph⟩ := encUnitStep_frame s.cfg s.enc
    simp [ht, hph, hrun]
  · simp [ht]

/-- ENC out of RUN takes the START presented, or keeps every field. -/
theorem encMove_of_not_run_cases {s t : State} (hrun : s.enc.phase ≠ .run) (h : encMove s = .next t) :
    (∃ src, s.enc.start = some src ∧ t.enc = encStarted s.cfg src) ∨ (s.enc.start = none ∧ t.enc = s.enc) := by
  rcases encMove_cases h with ⟨src, hst, -, rfl⟩ | ⟨-, hph, -⟩ | ⟨-, hph, -⟩ | ⟨hst, -, rfl⟩
  · exact .inl ⟨src, hst, rfl⟩
  · exact absurd hph hrun
  · exact absurd hph hrun
  · exact .inr ⟨hst, rfl⟩

/-- A step seen from each engine: it is a move of that engine, made beside the other one. -/
theorem step_parts {s t : State} (h : step s = .next t) :
    ∃ u, decMove s = .next u ∧ encMove u = .next t ∧ t.dec = u.dec ∧ u.enc = s.enc ∧ u.cfg = s.cfg ∧ t.cfg = s.cfg := by
  obtain ⟨u, hd, he⟩ := step_cases h
  obtain ⟨hue, huc⟩ := decMove_keeps_enc hd
  obtain ⟨htd, htc⟩ := encMove_keeps_dec he
  exact ⟨u, hd, he, htd, hue, huc, htc.trans huc⟩

/-- Settles O27: neither engine's move touches the configuration. -/
theorem stepKeepsTheConfiguration : Obligations.StepKeepsTheConfiguration := by
  intro s t h
  obtain ⟨-, -, -, -, -, -, hcfg⟩ := step_parts h
  exact hcfg

/-! ### Phases -/

/-- What DEC's move can make of its phase (10_state.md R26, 60_exceptions.md R167). -/
theorem decMove_phase {s t : State} (h : decMove s = .next t) :
    (s.dec.start = none → s.dec.phase ≠ .run → t.dec = s.dec) ∧
    (t.dec.phase = .run → s.dec.phase ≠ .run → s.dec.start = some t.dec.src) ∧
    (t.dec.phase = .done → s.dec.phase = .run ∨ s.dec.phase = .done) ∧
    (t.dec.phase = .fault → s.dec.phase = .run ∨ s.dec.phase = .fault) ∧
    (t.dec.phase = .idle → s.dec.phase = .idle) := by
  by_cases hrun : s.dec.phase = .run
  · simp [hrun, decMove_of_run_phase hrun h]
  · rcases decMove_of_not_run_cases hrun h with ⟨src, hst, ht⟩ | ⟨hst, ht⟩
    · simp [hst, ht, decStarted]
    · simp +contextual [ht, hrun]

/-- What ENC's move can make of its phase (10_state.md R26). -/
theorem encMove_phase {s t : State} (h : encMove s = .next t) :
    (s.enc.start = none → s.enc.phase ≠ .run → t.enc = s.enc) ∧
    (t.enc.phase = .run → s.enc.phase ≠ .run → s.enc.start = some t.enc.src) ∧
    (t.enc.phase = .done → s.enc.phase = .run ∨ s.enc.phase = .done) ∧
    (t.enc.phase = .idle → s.enc.phase = .idle) := by
  by_cases hrun : s.enc.phase = .run
  · simp [hrun, encMove_of_run_phase hrun h]
  · rcases encMove_of_not_run_cases hrun h with ⟨src, hst, ht⟩ | ⟨hst, ht⟩
    · simp [hst, ht, encStarted]
    · simp +contextual [ht, hrun]

/-- Settles O28: a step makes one move of each engine, and `decMove_phase` and `encMove_phase` say what each can do. -/
theorem onlyStartAndEndChangeThePhase : Obligations.OnlyStartAndEndChangeThePhase := by
  intro s t h
  obtain ⟨u, hdec, henc, htd, hue, -, -⟩ := step_parts h
  obtain ⟨dKept, dRun, dDone, dFault, dIdle⟩ := decMove_phase hdec
  obtain ⟨eKept, eRun, eDone, eIdle⟩ := encMove_phase henc
  rw [← htd] at dKept dRun dDone dFault dIdle
  rw [hue] at eKept eRun eDone eIdle
  exact ⟨dKept, eKept, dRun, eRun, dDone, dFault, eDone, dIdle, eIdle⟩

/-! ### The invariant -/

theorem decStarted_inv (k : Nat) (src : List Byte) : DecInv (decStarted k src) := by
  simp [DecInv, decStarted]

/-- A unit keeps the invariant of a running DEC: it feeds at most 18 bits (41_decode.md R148). -/
theorem decUnitDone_inv {c : Cfg} {i : Instr} {d : Dec} (h : DecInv d) (hunit : d.pos + 4 ≤ d.m) :
    DecInv (decUnitDone c i d) := by
  intro hrun
  obtain ⟨hsrc, hm, hpos, hph, -⟩ := decUnitDone_frame c i d
  obtain ⟨hlen, halign, -, hn, ha, hmod, hout⟩ := h (hph ▸ hrun)
  obtain ⟨hn', ha'⟩ := decFeedAll_bounds (consumedOperands c i) hn ha
  have hfed := decFeedAll_fedBits (consumedOperands c i) d
  have hfields := consumedOperands_length_le c i
  rw [hsrc, hm, hpos]
  refine ⟨hlen, by omega, hunit, hn', ha', ?_, ?_⟩ <;> simp only [decUnitDone, decAdvance] <;> omega

theorem decMove_inv {s t : State} (hinv : DecInv s.dec) (h : decMove s = .next t) : DecInv t.dec := by
  by_cases hrun : s.dec.phase = .run
  · rcases decMove_of_run_cases hrun h with ⟨hunit, i, ht⟩ | ht | ht
    · exact ht ▸ decUnitDone_inv hinv hunit
    · simp [DecInv, ht]
    · simp [DecInv, ht]
  · rcases decMove_of_not_run_cases hrun h with ⟨src, -, ht⟩ | ⟨-, ht⟩
    · exact ht ▸ decStarted_inv s.draw src
    · exact ht ▸ hinv

theorem encStarted_inv (c : Cfg) (src : List Byte) : EncInv c (encStarted c src) := by
  simp [EncInv, encStarted]

/-- A slot step takes 6 bits, after a pull of 8 when fewer than 6 are held (40_encode.md R103, R104). -/
theorem encSlot_cursor (e : Enc) :
    (e.nbits < 6 → (encSlot e).2.ip = e.ip + 1 ∧ (encSlot e).2.nbits = e.nbits + 2) ∧
      (6 ≤ e.nbits → (encSlot e).2.ip = e.ip ∧ (encSlot e).2.nbits = e.nbits - 6) := by
  refine ⟨fun h => ?_, fun h => ?_⟩
  · simp [encSlot, encDrop, encPull_of_lt h]
  · simp [encSlot, encDrop, encPull_of_le h]

theorem encSlot_acc_lt (e : Enc) : (encSlot e).2.acc < 2 ^ (encSlot e).2.nbits := and_mask_lt ..

theorem encUnitStep_acc_lt (c : Cfg) (e : Enc) : (encUnitStep c e).acc < 2 ^ (encUnitStep c e).nbits :=
  encSlot_acc_lt _

/-- A unit step makes three slot steps. -/
theorem encUnitStep_cursor (c : Cfg) (e : Enc) :
    (encUnitStep c e).ip = (encSlot (encSlot (encSlot e).2).2).2.ip ∧
      (encUnitStep c e).nbits = (encSlot (encSlot (encSlot e).2).2).2.nbits := ⟨rfl, rfl⟩

/-- A unit step appends the four bytes of a unit. -/
theorem encUnitStep_dst_length (c : Cfg) (e : Enc) : (encUnitStep c e).dst.length = e.dst.length + 4 := by
  unfold encUnitStep
  rw [encEmit_dst, List.length_append, emitUnit_length, encSlot_frame, encSlot_frame, encSlot_frame]

/-- The read pattern (20_memory.md R55): of four units in a row the first pulls 3 bytes and the others 2, and the bits held
before them are 0, 6, 4 and 2. -/
theorem encUnitStep_readPattern (c : Cfg) {e : Enc} (hip : e.ip = (9 * e.u + 3) / 4)
    (hbits : e.nbits + 18 * e.u = 8 * e.ip) :
    (encUnitStep c e).ip = (9 * (e.u + 1) + 3) / 4 ∧
      (encUnitStep c e).nbits + 18 * (e.u + 1) = 8 * (encUnitStep c e).ip := by
  obtain ⟨hip', hn'⟩ := encUnitStep_cursor c e
  have h1 := encSlot_cursor e
  have h2 := encSlot_cursor (encSlot e).2
  have h3 := encSlot_cursor (encSlot (encSlot e).2).2
  omega

/-- A unit step keeps the invariant of a running ENC. -/
theorem encUnitStep_inv {c : Cfg} {e : Enc} (h : EncInv c e) (hrun : e.phase = .run) (hu : e.u < e.units) :
    EncInv c (encUnitStep c e) := by
  obtain ⟨hn, htotal, hunits, hr, -, hip, hbits, -, hdst⟩ := h.1 hrun
  obtain ⟨-, hsrc', hn', htotal', hunits', hr', hu', hph'⟩ := encUnitStep_frame c e
  obtain ⟨hip', hbits'⟩ := encUnitStep_readPattern c hip hbits
  have hdst' := encUnitStep_dst_length c e
  refine ⟨fun _ => ?_, fun hdone => ?_⟩
  · rw [hsrc', hn', htotal', hunits', hr', hu']
    exact ⟨hn, htotal, hunits, hr, hu, hip', hbits', encUnitStep_acc_lt c e, by omega⟩
  · simp [hph', hrun] at hdone

theorem encMove_inv {s t : State} (hinv : EncInv s.cfg s.enc) (h : encMove s = .next t) : EncInv s.cfg t.enc := by
  by_cases hrun : s.enc.phase = .run
  · rcases encMove_of_run_cases hrun h with ⟨hu, ht⟩ | ⟨-, -, hdone, hdst⟩
    · exact ht ▸ encUnitStep_inv hinv hrun hu
    · obtain ⟨-, -, -, -, -, -, -, -, hlen⟩ := hinv.1 hrun
      exact ⟨fun hr => by simp [hdone] at hr, fun _ => by rw [hdst, hlen]; exact Nat.mul_mod_right 4 _⟩
  · rcases encMove_of_not_run_cases hrun h with ⟨src, -, ht⟩ | ⟨-, ht⟩
    · exact ht ▸ encStarted_inv s.cfg src
    · exact ht ▸ hinv

/-- Settles O25: each engine's move keeps the invariant of its engine, and leaves the other engine and the configuration
alone. -/
theorem stepKeepsTheInvariant : Obligations.StepKeepsTheInvariant := by
  intro s t ⟨hencInv, hdecInv⟩ h
  obtain ⟨u, hdec, henc, htd, hue, huc, htc⟩ := step_parts h
  refine ⟨?_, ?_⟩
  · have hkept : EncInv u.cfg t.enc := encMove_inv (by rwa [huc, hue]) henc
    rwa [htc, ← huc]
  · exact htd ▸ decMove_inv hdecInv hdec

/-! ### What two engines can differ in -/

/-- The same DEC with another `errOff`, which the spec leaves unspecified outside FAULT (log 6). -/
def Dec.withErrOff (off : Nat) (d : Dec) : Dec := { d with errOff := off }

@[simp] theorem Dec.withErrOff_start (off : Nat) (d : Dec) : (d.withErrOff off).start = d.start := rfl
@[simp] theorem Dec.withErrOff_src (off : Nat) (d : Dec) : (d.withErrOff off).src = d.src := rfl
@[simp] theorem Dec.withErrOff_m (off : Nat) (d : Dec) : (d.withErrOff off).m = d.m := rfl
@[simp] theorem Dec.withErrOff_pos (off : Nat) (d : Dec) : (d.withErrOff off).pos = d.pos := rfl
@[simp] theorem Dec.withErrOff_dst (off : Nat) (d : Dec) : (d.withErrOff off).dst = d.dst := rfl
@[simp] theorem Dec.withErrOff_phase (off : Nat) (d : Dec) : (d.withErrOff off).phase = d.phase := rfl

/-- Two DECs agree when they differ only in what the spec leaves unspecified (log 6, log 7): `errOff` outside FAULT, `dst`
outside RUN and DONE, and the transient fields outside RUN. -/
structure Dec.Agree (d d' : Dec) : Prop where
  start : d'.start = d.start
  phase : d'.phase = d.phase
  running : d.phase = .run → d' = d.withErrOff d'.errOff
  done : d.phase = .done → d'.dst = d.dst
  fault : d.phase = .fault → d'.errOff = d.errOff

/-- Two ENCs agree when they differ only in what the spec leaves unspecified (log 6): `dst` outside RUN and DONE, and the
transient fields outside RUN. -/
structure Enc.Agree (e e' : Enc) : Prop where
  start : e'.start = e.start
  phase : e'.phase = e.phase
  running : e.phase = .run → e' = e
  done : e.phase = .done → e'.dst = e.dst

theorem Dec.Agree.refl (d : Dec) : d.Agree d := ⟨rfl, rfl, fun _ => rfl, fun _ => rfl, fun _ => rfl⟩

theorem Enc.Agree.refl (e : Enc) : e.Agree e := ⟨rfl, rfl, fun _ => rfl, fun _ => rfl⟩

/-- DECs that agree show the host the same result. -/
theorem Dec.Agree.decResult_eq {t t' : State} (h : t.dec.Agree t'.dec) : decResult t = decResult t' := by
  unfold decResult
  rw [h.phase]
  cases hph : t.dec.phase with
  | idle => rfl
  | run => rfl
  | done => simp only [h.done hph]
  | fault => simp only [h.fault hph]

/-- ENCs that agree show the host the same result. -/
theorem Enc.Agree.encDst_eq {t t' : State} (h : t.enc.Agree t'.enc) : encDst t = encDst t' := by
  unfold encDst
  rw [h.phase]
  cases hph : t.enc.phase with
  | idle => rfl
  | run => rfl
  | done => simp only [h.done hph]

/-- START leaves nothing of what DEC held before; `errOff` is drawn anew. -/
theorem decStarted_agree (k k' : Nat) (src : List Byte) : (decStarted k src).Agree (decStarted k' src) :=
  ⟨rfl, rfl, fun _ => rfl, nofun, nofun⟩

theorem raiseMalformed_agree {s s' : State} (hst : s'.dec.start = s.dec.start) (off : Nat) :
    (raiseMalformed off s).dec.Agree (raiseMalformed off s').dec :=
  ⟨hst, rfl, nofun, nofun, fun _ => rfl⟩

/-! ### Moves of engines that agree -/

/-- A feed neither reads nor writes `errOff`. -/
theorem decFeed_withErrOff (v : Sextet) (d : Dec) (off : Nat) :
    decFeed v (d.withErrOff off) = (decFeed v d).withErrOff off := by
  unfold decFeed Dec.withErrOff
  dsimp only
  split <;> rfl

/-- Consumption neither reads nor writes `errOff`. -/
theorem decConsumeAll_withErrOff (c : Cfg) (pos : Nat) (L : List (Nat × Payload)) (d : Dec) (off : Nat) :
    decConsumeAll c pos L (d.withErrOff off) = (decConsumeAll c pos L d).map (Dec.withErrOff off) := by
  induction L generalizing d with
  | nil => rfl
  | cons e L ih =>
    obtain ⟨j, p⟩ := e
    by_cases h : p.cm = c.cont
    · simp [decConsumeAll, decConsume, h, decFeed_withErrOff, ih]
    · simp [decConsumeAll, decConsume, h, Except.map]

/-- With a complete unit at `pos` whose lead byte is right, a pass of the loop executes it. -/
theorem decRun_of_unit {s : State} {i : Instr} {rest : List Byte} (hm : s.dec.m ≤ s.dec.src.length)
    (hpos : s.dec.pos + 4 ≤ s.dec.m) (hdecode : decode s.cfg (s.dec.src.drop s.dec.pos) = .ok (i, rest)) :
    decRun s = exec i s := by
  simp [decRun, Nat.not_lt.mpr hm, hpos, hdecode]

/-- With a complete unit at `pos` whose lead byte is wrong, a pass of the loop raises `MalformedInput(pos)`. -/
theorem decRun_of_badLead {s : State} {e : DecodeError} (hm : s.dec.m ≤ s.dec.src.length)
    (hpos : s.dec.pos + 4 ≤ s.dec.m) (hdecode : decode s.cfg (s.dec.src.drop s.dec.pos) = .error e) :
    decRun s = .next (raiseMalformed s.dec.pos s) := by
  simp [decRun, Nat.not_lt.mpr hm, hpos, hdecode]

/-- With no complete unit left, a pass of the loop ends the operation. -/
theorem decRun_of_end {s : State} (hm : s.dec.m ≤ s.dec.src.length) (hpos : s.dec.m < s.dec.pos + 4) :
    decRun s = .next (decFinish s) := by
  simp [decRun, Nat.not_lt.mpr hm, Nat.not_le.mpr hpos]

section TwoRuns

variable {s s' t t' : State} {off : Nat}

theorem decUnit_agree (hcfg : s'.cfg = s.cfg) (hdec : s'.dec = s.dec.withErrOff off) (hrun : s.dec.phase = .run)
    {L : List (Nat × Payload)} (h : decUnit L s = .next t) (h' : decUnit L s' = .next t') : t.dec.Agree t'.dec := by
  unfold decUnit at h h'
  rw [hcfg, hdec, Dec.withErrOff_pos, decConsumeAll_withErrOff] at h'
  cases hL : decConsumeAll s.cfg s.dec.pos L s.dec with
  | error o =>
    rw [hL] at h h'
    cases h
    cases h'
    exact raiseMalformed_agree (by rw [hdec, Dec.withErrOff_start]) o
  | ok d =>
    rw [hL] at h h'
    cases h
    cases h'
    obtain ⟨-, rfl⟩ := (decConsumeAll_ok_iff ..).mp hL
    obtain ⟨-, -, -, -, hph, -⟩ := foldl_decFeed_frame L s.dec
    exact ⟨rfl, rfl, fun _ => rfl, fun _ => rfl, fun hf => nomatch hf.symm.trans (hph.trans hrun)⟩

theorem decFinish_agree (hdec : s'.dec = s.dec.withErrOff off) : (decFinish s).dec.Agree (decFinish s').dec := by
  have hst : s'.dec.start = s.dec.start := by rw [hdec, Dec.withErrOff_start]
  have hdst : s'.dec.dst = s.dec.dst := by rw [hdec, Dec.withErrOff_dst]
  unfold decFinish
  rw [show s'.dec.pos = s.dec.pos by rw [hdec, Dec.withErrOff_pos],
    show s'.dec.m = s.dec.m by rw [hdec, Dec.withErrOff_m]]
  split
  next => exact ⟨hst, rfl, nofun, fun _ => hdst, nofun⟩
  next => exact raiseMalformed_agree hst _

/-- In RUN a move reads nothing of the state but the configuration and what agreeing DECs have in common. -/
theorem decMove_agree_of_run (hcfg : s'.cfg = s.cfg) (hdec : s'.dec = s.dec.withErrOff off)
    (hrun : s.dec.phase = .run) (h : decMove s = .next t) (h' : decMove s' = .next t') : t.dec.Agree t'.dec := by
  have hst' : s'.dec.start = s.dec.start := by rw [hdec, Dec.withErrOff_start]
  have hph' : s'.dec.phase = s.dec.phase := by rw [hdec, Dec.withErrOff_phase]
  have hsrc' : s'.dec.src = s.dec.src := by rw [hdec, Dec.withErrOff_src]
  have hm' : s'.dec.m = s.dec.m := by rw [hdec, Dec.withErrOff_m]
  have hpos' : s'.dec.pos = s.dec.pos := by rw [hdec, Dec.withErrOff_pos]
  rcases decMove_cases h with ⟨_, -, hph, -⟩ | ⟨hst, hph, hm, hpos, hunit⟩ | ⟨hst, hph, hm, hpos, rfl⟩ | ⟨-, hph, -⟩
  · exact absurd hrun hph
  · rw [decMove_of_running (hst'.trans hst) (hph'.trans hph)] at h'
    rw [← hm', ← hsrc'] at hm
    rw [← hm', ← hpos'] at hpos
    rcases hunit with ⟨i, rest, hdecode, hexec⟩ | ⟨e, hdecode, rfl⟩ <;> rw [← hcfg, ← hsrc', ← hpos'] at hdecode
    · rw [decRun_of_unit hm hpos hdecode, exec_eq_decUnit, hcfg] at h'
      rw [exec_eq_decUnit] at hexec
      exact decUnit_agree hcfg hdec hrun hexec h'
    · rw [decRun_of_badLead hm hpos hdecode, hpos'] at h'
      cases h'
      exact raiseMalformed_agree hst' s.dec.pos
  · rw [← hm', ← hsrc'] at hm
    rw [← hm', ← hpos'] at hpos
    rw [decMove_of_running (hst'.trans hst) (hph'.trans hph), decRun_of_end hm hpos] at h'
    cases h'
    exact decFinish_agree hdec
  · exact absurd hrun hph

theorem decMove_agree_of_start {src : List Byte} (hst : s.dec.start = some src) (hrun : s.dec.phase ≠ .run)
    (hst' : s'.dec.start = some src) (hrun' : s'.dec.phase ≠ .run) (h : decMove s = .next t)
    (h' : decMove s' = .next t') : t.dec.Agree t'.dec := by
  rw [decMove_of_start hst hrun] at h
  rw [decMove_of_start hst' hrun'] at h'
  cases h
  cases h'
  exact decStarted_agree s.draw s'.draw src

/-- DEC's move keeps agreement: it depends on the configuration and DEC only, and free values reach no result. -/
theorem decMove_agree (hcfg : s'.cfg = s.cfg) (hdec : s.dec.Agree s'.dec) (h : decMove s = .next t)
    (h' : decMove s' = .next t') : t.dec.Agree t'.dec := by
  by_cases hrun : s.dec.phase = .run
  · exact decMove_agree_of_run hcfg (hdec.running hrun) hrun h h'
  · have hrun' : s'.dec.phase ≠ .run := hdec.phase ▸ hrun
    cases hst : s.dec.start with
    | some src => exact decMove_agree_of_start hst hrun (hdec.start.trans hst) hrun' h h'
    | none =>
      rw [decMove_of_waiting hst hrun] at h
      rw [decMove_of_waiting (hdec.start.trans hst) hrun'] at h'
      cases h
      cases h'
      exact hdec

theorem encMove_agree_of_run (hcfg : s'.cfg = s.cfg) (henc : s'.enc = s.enc) (hrun : s.enc.phase = .run)
    (h : encMove s = .next t) (h' : encMove s' = .next t') : t.enc.Agree t'.enc := by
  have h'cases := encMove_of_run_cases (henc ▸ hrun) h'
  rw [hcfg, henc] at h'cases
  rcases encMove_of_run_cases hrun h with ⟨hu, ht⟩ | ⟨hu, hst, hph, hdst⟩ <;>
    rcases h'cases with ⟨hu', ht'⟩ | ⟨hu', hst', hph', hdst'⟩
  · exact ht ▸ ht' ▸ .refl _
  · omega
  · omega
  · exact ⟨hst'.trans hst.symm, hph'.trans hph.symm, fun hr => (nomatch hr.symm.trans hph),
      fun _ => hdst'.trans hdst.symm⟩

theorem encMove_agree_of_start {src : List Byte} (hcfg : s'.cfg = s.cfg) (hst : s.enc.start = some src)
    (hrun : s.enc.phase ≠ .run) (hst' : s'.enc.start = some src) (hrun' : s'.enc.phase ≠ .run)
    (h : encMove s = .next t) (h' : encMove s' = .next t') : t.enc.Agree t'.enc := by
  rw [encMove_of_start hst hrun] at h
  rw [encMove_of_start hst' hrun'] at h'
  cases h
  cases h'
  simp only [startEnc, State.setEnc_enc, hcfg]
  exact .refl _

/-- ENC's move keeps agreement: it depends on the configuration and ENC only, and free values reach no result. -/
theorem encMove_agree (hcfg : s'.cfg = s.cfg) (henc : s.enc.Agree s'.enc) (h : encMove s = .next t)
    (h' : encMove s' = .next t') : t.enc.Agree t'.enc := by
  by_cases hrun : s.enc.phase = .run
  · exact encMove_agree_of_run hcfg (henc.running hrun) hrun h h'
  · have hrun' : s'.enc.phase ≠ .run := henc.phase ▸ hrun
    cases hst : s.enc.start with
    | some src => exact encMove_agree_of_start hcfg hst hrun (henc.start.trans hst) hrun' h h'
    | none =>
      rw [encMove_of_waiting hst hrun] at h
      rw [encMove_of_waiting (henc.start.trans hst) hrun'] at h'
      cases h
      cases h'
      exact henc

/-! ### Steps and runs of states that agree on one engine -/

/-- What decides the results of DEC: the configuration, and DEC up to what the spec leaves unspecified. -/
abbrev State.AgreeOnDec (s s' : State) : Prop := s'.cfg = s.cfg ∧ s.dec.Agree s'.dec

/-- What decides the results of ENC. -/
abbrev State.AgreeOnEnc (s s' : State) : Prop := s'.cfg = s.cfg ∧ s.enc.Agree s'.enc

theorem step_agreeOnDec (hs : s.AgreeOnDec s') (h : step s = .next t) (h' : step s' = .next t') : t.AgreeOnDec t' := by
  obtain ⟨u, hu, -, htu, -, -, hc⟩ := step_parts h
  obtain ⟨u', hu', -, htu', -, -, hc'⟩ := step_parts h'
  rw [State.AgreeOnDec, hc, hc', htu, htu']
  exact ⟨hs.1, decMove_agree hs.1 hs.2 hu hu'⟩

theorem step_agreeOnEnc (hs : s.AgreeOnEnc s') (h : step s = .next t) (h' : step s' = .next t') : t.AgreeOnEnc t' := by
  obtain ⟨u, -, hu, -, hue, huc, hc⟩ := step_parts h
  obtain ⟨u', -, hu', -, hue', huc', hc'⟩ := step_parts h'
  have hcfg : u'.cfg = u.cfg := by rw [huc', huc, hs.1]
  rw [State.AgreeOnEnc, hc, hc']
  exact ⟨hs.1, encMove_agree hcfg (by rw [hue, hue']; exact hs.2) hu hu'⟩

/-- A START taken on both sides brings the DECs to agreement, whatever they held before. -/
theorem step_agreeOnDec_of_start {src : List Byte} (hcfg : s'.cfg = s.cfg) (hst : s.dec.start = some src)
    (hrun : s.dec.phase ≠ .run) (hst' : s'.dec.start = some src) (hrun' : s'.dec.phase ≠ .run)
    (h : step s = .next t) (h' : step s' = .next t') : t.AgreeOnDec t' := by
  obtain ⟨u, hu, -, htu, -, -, hc⟩ := step_parts h
  obtain ⟨u', hu', -, htu', -, -, hc'⟩ := step_parts h'
  rw [State.AgreeOnDec, hc, hc', htu, htu']
  exact ⟨hcfg, decMove_agree_of_start hst hrun hst' hrun' hu hu'⟩

/-- A START taken on both sides brings the ENCs to agreement, whatever they held before. -/
theorem step_agreeOnEnc_of_start {src : List Byte} (hcfg : s'.cfg = s.cfg) (hst : s.enc.start = some src)
    (hrun : s.enc.phase ≠ .run) (hst' : s'.enc.start = some src) (hrun' : s'.enc.phase ≠ .run)
    (h : step s = .next t) (h' : step s' = .next t') : t.AgreeOnEnc t' := by
  obtain ⟨u, -, hu, -, hue, huc, hc⟩ := step_parts h
  obtain ⟨u', -, hu', -, hue', huc', hc'⟩ := step_parts h'
  rw [State.AgreeOnEnc, hc, hc']
  rw [← hue] at hst hrun
  rw [← hue'] at hst' hrun'
  exact ⟨hcfg, encMove_agree_of_start (by rw [huc', huc, hcfg]) hst hrun hst' hrun' hu hu'⟩

end TwoRuns

/-- A DEC that stays in RUN keeps `errOff`. -/
theorem decMove_errOff_of_stays_in_run {s t : State} (h : decMove s = .next t) (hrun : s.dec.phase = .run)
    (hrun' : t.dec.phase = .run) : t.dec.errOff = s.dec.errOff := by
  rcases decMove_of_run_cases hrun h with ⟨-, i, ht⟩ | ht | ht
  · obtain ⟨-, -, -, -, herr⟩ := decUnitDone_frame s.cfg i s.dec
    rw [ht, herr]
  · cases hrun'.symm.trans ht
  · cases hrun'.symm.trans ht

/-- Settles O52: equal engines agree, a step keeps agreement, and a DEC that stays in RUN keeps `errOff`, all that agreeing
DECs may differ in there. -/
theorem enginesShareNothing : Obligations.EnginesShareNothing := by
  intro s s' t t' hcfg h h'
  refine ⟨fun hdec => ?_, fun henc => ?_⟩
  · have hagree := (step_agreeOnDec ⟨hcfg.symm, hdec ▸ .refl _⟩ h h').2
    refine ⟨hagree.phase.symm, hagree.decResult_eq, fun hrun hrun' => ?_⟩
    obtain ⟨u, hu, -, htu, -⟩ := step_parts h
    obtain ⟨u', hu', -, htu', -⟩ := step_parts h'
    have herr : t.dec.errOff = s.dec.errOff := htu ▸ decMove_errOff_of_stays_in_run hu hrun (htu ▸ hrun')
    have herr' : t'.dec.errOff = s'.dec.errOff :=
      htu' ▸ decMove_errOff_of_stays_in_run hu' (hdec ▸ hrun) (htu' ▸ hagree.phase.trans hrun')
    rw [hagree.running hrun', herr', ← hdec, ← herr]
    rfl
  · have hagree := (step_agreeOnEnc ⟨hcfg.symm, henc ▸ .refl _⟩ h h').2
    exact ⟨hagree.phase.symm, hagree.encDst_eq, fun hrun => (hagree.running hrun).symm⟩

/-! ### Results do not depend on history -/

theorem core_run_succ (k : Nat) (s : State) : core.run (k + 1) s = andThen (step s) (core.run k) := by
  simp only [Host.Core.run]
  cases h : step s <;> simp [core, andThen, h]

/-- A run of one more step makes that step first. -/
theorem core_run_succ_cases {k : Nat} {s t : State} (h : core.run (k + 1) s = .next t) :
    ∃ u, step s = .next u ∧ core.run k u = .next t :=
  andThen_next (core_run_succ k s ▸ h)

/-- A relation that two steps keep is kept by two runs of one length. -/
theorem core_run_keeps_relation {R : State → State → Prop}
    (hstep : ∀ {s s' t t'}, R s s' → step s = .next t → step s' = .next t' → R t t') :
    ∀ (k : Nat) {s s' t t' : State}, R s s' → core.run k s = .next t → core.run k s' = .next t' → R t t'
  | 0, _, _, _, _, hR, h, h' => by
    cases h
    cases h'
    exact hR
  | k + 1, _, _, _, _, hR, h, h' => by
    obtain ⟨u, hu, hrest⟩ := core_run_succ_cases h
    obtain ⟨u', hu', hrest'⟩ := core_run_succ_cases h'
    exact core_run_keeps_relation hstep k (hstep hR hu hu') hrest hrest'

/-- Settles O53: the first step takes the START, after which the two engines agree whatever they held before, and the other
steps keep that. -/
theorem resultsDoNotDependOnHistory : Obligations.ResultsDoNotDependOnHistory := by
  intro s s' t t' src hcfg
  refine ⟨fun ⟨_, _, hidle⟩ ⟨_, _, hidle'⟩ h h' => ?_, fun ⟨_, _, hidle⟩ ⟨_, _, hidle'⟩ h h' => ?_⟩
  · obtain ⟨u, hu, hrest⟩ := core_run_succ_cases h
    obtain ⟨u', hu', hrest'⟩ := core_run_succ_cases h'
    have hstart : u.AgreeOnDec u' :=
      step_agreeOnDec_of_start (s := presentStart .dec src s) (s' := presentStart .dec src s') hcfg.symm rfl hidle rfl
        hidle' hu hu'
    exact (core_run_keeps_relation step_agreeOnDec _ hstart hrest hrest').2.decResult_eq
  · rw [EncodeRun, ← hcfg] at h'
    obtain ⟨u, hu, hrest⟩ := core_run_succ_cases h
    obtain ⟨u', hu', hrest'⟩ := core_run_succ_cases h'
    have hstart : u.AgreeOnEnc u' :=
      step_agreeOnEnc_of_start (s := presentStart .enc src s) (s' := presentStart .enc src s') hcfg.symm rfl hidle rfl
        hidle' hu hu'
    exact (core_run_keeps_relation step_agreeOnEnc _ hstart hrest hrest').2.encDst_eq

end Sys2Proof.Machine

/-! PROOFS. The memory claims (20_memory.md): what an accepted unit stores and leaves as it was (R57), the source and the
output of a running operation (R50, R57), and the overrun reads of an ENCODE (R55). -/

namespace Sys2Proof.Machine

/-! ### The markers of what a unit consumes -/

/-- Bits below the marker field do not touch it. -/
theorem or_marker {x y : Byte} (h : y.extractLsb' 6 2 = 0#2) : (x ||| y).extractLsb' 6 2 = x.extractLsb' 6 2 := by
  rw [BitVec.extractLsb'_or, h, BitVec.or_zero]

theorem mark_marker (c : Cfg) : c.mark.extractLsb' 6 2 = c.cont := by
  have h : ∀ m : BitVec 2, (m.setWidth 8 <<< 6).extractLsb' 6 2 = m := by decide
  exact h c.cont

theorem ncsByte1_marker (c : Cfg) (plane : BitVec 2) : (ncsByte1 c plane).extractLsb' 6 2 = c.cont := by
  have hplane : ∀ p : BitVec 2, (p.setWidth 8 <<< 4).extractLsb' 6 2 = 0#2 := by decide
  rw [ncsByte1, or_marker (by decide), or_marker (hplane plane), mark_marker]

theorem ncsByte2_marker (c : Cfg) : (ncsByte2 c).extractLsb' 6 2 = c.cont := by
  rw [ncsByte2, or_marker (by decide), mark_marker]

theorem ncsByte3_marker (c : Cfg) (flag : BitVec 1) : (ncsByte3 c flag).extractLsb' 6 2 = c.cont := by
  have hflag : ∀ f : BitVec 1, (f.setWidth 8 : Byte).extractLsb' 6 2 = 0#2 := by decide
  rw [ncsByte3, or_marker (hflag flag), or_marker (by decide), mark_marker]

/-- DEC accepts a unit exactly when every position it consumes carries the marker; the bytes reconstructed for an NCS
always do (30_encoding.md R82, R85 (b)). -/
theorem accepted_iff_consumed_marked (c : Cfg) (i : Instr) :
    i.accepted c = true ↔ ∀ e ∈ consumedOperands c i, e.2.cm = c.cont := by
  cases i with
  | reg => simp [Instr.accepted, consumedOperands, allOperands, and_assoc]
  | tun => simp [Instr.accepted, consumedOperands, allOperands, and_assoc]
  | ncs =>
    simp [Instr.accepted, consumedOperands, ncsOperands, allOperands, payloadOfByte, ncsByte1_marker, ncsByte2_marker,
      ncsByte3_marker]
  | tpd1 => simp [Instr.accepted, consumedOperands, skip1Operands]
  | tpd2 => simp [Instr.accepted, consumedOperands, skip2Operands]

/-- The number of positions a unit consumes is its field count (41_decode.md R148). -/
theorem consumedOperands_length (c : Cfg) (i : Instr) : (consumedOperands c i).length = fieldCount i := by
  cases i <;> rfl

/-! ### The frame of an accepted unit -/

theorem exec_of_accepted {i : Instr} {s : State} (h : i.accepted s.cfg = true) :
    exec i s = .next (s.setDec (decUnitDone s.cfg i s.dec)) := by
  have hfed := (decConsumeAll_ok_iff s.cfg s.dec.pos (consumedOperands s.cfg i) s.dec _).mpr
    ⟨(accepted_iff_consumed_marked s.cfg i).mp h, rfl⟩
  rw [exec_eq_decUnit, decUnit, hfed]

theorem decUnitDone_start (c : Cfg) (i : Instr) (d : Dec) : (decUnitDone c i d).start = d.start := by
  obtain ⟨hstart, -⟩ := foldl_decFeed_frame (consumedOperands c i) d
  exact hstart

/-- A unit only appends to the output (20_memory.md R57). -/
theorem dst_isPrefix_decUnitDone (c : Cfg) (i : Instr) (d : Dec) : d.dst <+: (decUnitDone c i d).dst := by
  obtain ⟨-, -, -, -, -, -, hdst⟩ := foldl_decFeed_frame (consumedOperands c i) d
  exact hdst

theorem decFeedAll_nbits_le (L : List (Nat × Payload)) {d : Dec} (h : d.nbits ≤ 7) : (decFeedAll L d).nbits ≤ 7 := by
  induction L generalizing d with
  | nil => exact h
  | cons e L ih => exact ih (decFeed_nbits_le h)

/-- The bytes a unit stores: the whole ones among the bits held before it and the bits it feeds (41_decode.md R142). -/
theorem decUnitDone_dst_length (c : Cfg) (i : Instr) {d : Dec} (h : d.nbits ≤ 7) :
    (decUnitDone c i d).dst.length = d.dst.length + (d.nbits + 6 * fieldCount i) / 8 := by
  have hfed := decFeedAll_fedBits (consumedOperands c i) d
  have hheld := decFeedAll_nbits_le (consumedOperands c i) h
  rw [consumedOperands_length] at hfed
  simp only [decUnitDone, decAdvance]
  omega

/-- Outside the appended range a lengthened buffer reads as before: the same bytes below it, none above it. -/
theorem Buffer.read_of_isPrefix {old new : List Byte} (h : old <+: new) {off : Nat}
    (hoff : off < old.length ∨ new.length ≤ off) : Buffer.read new off = Buffer.read old off := by
  rcases hoff with hbelow | habove
  · obtain ⟨appended, rfl⟩ := h
    exact List.getElem?_append_left hbelow
  · simp [Buffer.read, habove, h.length_le.trans habove]

/-- Settles O11: an accepted unit feeds every position it consumes, and feeding only appends to `dst`. -/
theorem acceptedUnitFrame : Obligations.AcceptedUnitFrame := by
  intro i s haccepted
  obtain ⟨hsrc, hm, hpos, hph, herr⟩ := decUnitDone_frame s.cfg i s.dec
  exact ⟨_, exec_of_accepted haccepted, rfl, rfl, rfl, decUnitDone_start s.cfg i s.dec, hsrc, hm, hph, herr, hpos,
    fun _ hoff => Buffer.read_of_isPrefix (dst_isPrefix_decUnitDone s.cfg i s.dec) hoff,
    fun hheld => decUnitDone_dst_length s.cfg i hheld⟩

/-! ### The source and the output of a running operation -/

theorem decMove_of_stays_in_run {s t : State} (h : decMove s = .next t) (hrun : s.dec.phase = .run)
    (hrun' : t.dec.phase = .run) : t.dec.src = s.dec.src ∧ t.dec.m = s.dec.m ∧ s.dec.dst <+: t.dec.dst := by
  rcases decMove_of_run_cases hrun h with ⟨-, i, ht⟩ | hdone | hfault
  · obtain ⟨hsrc, hm, -⟩ := decUnitDone_frame s.cfg i s.dec
    rw [ht]
    exact ⟨hsrc, hm, dst_isPrefix_decUnitDone s.cfg i s.dec⟩
  · cases hrun'.symm.trans hdone
  · cases hrun'.symm.trans hfault

/-- DEC goes from RUN to DONE by the end of the loop only, which leaves the output as it stands (41_decode.md R143). -/
theorem decMove_dst_of_run_to_done {s t : State} (h : decMove s = .next t) (hrun : s.dec.phase = .run)
    (hdone : t.dec.phase = .done) : t.dec.dst = s.dec.dst := by
  rcases decMove_cases h with ⟨_, -, hph, -⟩ | ⟨-, -, -, -, ⟨i, _, -, hx⟩ | ⟨_, -, rfl⟩⟩ | ⟨-, -, -, -, rfl⟩ |
    ⟨-, hph, -⟩
  · exact absurd hrun hph
  · rcases exec_cases hx with ⟨-, rfl⟩ | ⟨_, -, rfl⟩
    · obtain ⟨-, -, -, hph, -⟩ := decUnitDone_frame s.cfg i s.dec
      cases (hdone.symm.trans hph).trans hrun
    · cases hdone
  · cases hdone
  · rcases decFinish_cases s with ⟨-, -, hdst⟩ | ⟨-, hmalformed⟩
    · exact hdst
    · rw [hmalformed] at hdone
      cases hdone
  · exact absurd hrun hph

@[simp] theorem encSlot_dst (e : Enc) : (encSlot e).2.dst = e.dst := by rw [encSlot_frame]

/-- A unit step only appends to the output (20_memory.md R57). -/
theorem dst_isPrefix_encUnitStep (c : Cfg) (e : Enc) : e.dst <+: (encUnitStep c e).dst := by
  simp [encUnitStep]

theorem encMove_of_stays_in_run {s t : State} (h : encMove s = .next t) (hrun : s.enc.phase = .run)
    (hrun' : t.enc.phase = .run) :
    t.enc.src = s.enc.src ∧ t.enc.n = s.enc.n ∧ t.enc.total = s.enc.total ∧ t.enc.units = s.enc.units ∧
      t.enc.r = s.enc.r ∧ s.enc.dst <+: t.enc.dst := by
  rcases encMove_of_run_cases hrun h with ⟨-, ht⟩ | ⟨-, -, hdone, -⟩
  · obtain ⟨-, hsrc, hn, htotal, hunits, hr, -⟩ := encUnitStep_frame s.cfg s.enc
    rw [ht]
    exact ⟨hsrc, hn, htotal, hunits, hr, dst_isPrefix_encUnitStep s.cfg s.enc⟩
  · cases hrun'.symm.trans hdone

/-- ENC goes from RUN to DONE by the end of the loop only, which leaves the output as it stands (40_encode.md R115). -/
theorem encMove_dst_of_run_to_done {s t : State} (h : encMove s = .next t) (hrun : s.enc.phase = .run)
    (hdone : t.enc.phase = .done) : t.enc.dst = s.enc.dst := by
  rcases encMove_of_run_cases hrun h with ⟨-, ht⟩ | ⟨-, -, -, hdst⟩
  · obtain ⟨-, -, -, -, -, -, -, hph⟩ := encUnitStep_frame s.cfg s.enc
    rw [ht, hph, hrun] at hdone
    cases hdone
  · exact hdst

/-- Settles O29: a step makes one move of each engine; in RUN a move is a unit step, which only appends to the output, or
the end of the operation, which leaves a result as it stands. -/
theorem sourceIsImmutableAndOutputAppends : Obligations.SourceIsImmutableAndOutputAppends := by
  intro s t h
  obtain ⟨u, hdec, henc, htd, hue, -, -⟩ := step_parts h
  rw [htd, ← hue]
  exact ⟨decMove_of_stays_in_run hdec, decMove_dst_of_run_to_done hdec, encMove_of_stays_in_run henc,
    encMove_dst_of_run_to_done henc⟩

/-! ### The overrun reads of an ENCODE -/

/-- With `EMPTY_UNITS = 0` the empty input is no exception to the unit count (40_encode.md R101). -/
theorem unitCount_of_no_empty_unit {c : Cfg} (h : c.emptyUnits = 0) (n : Nat) : unitCount c n = (8 * n + 17) / 18 := by
  by_cases hn : n = 0
  · simp [hn, h]
  · exact unitCount_pos c hn

/-- Nine input bytes fill four units exactly, so past the whole groups of nine the reads depend on `n mod 9` only. -/
theorem readCount_by_nines (n : Nat) :
    (9 * ((8 * n + 17) / 18) + 3) / 4 = 9 * (n / 9) + (9 * ((8 * (n % 9) + 17) / 18) + 3) / 4 := by omega

theorem overrun_table : ∀ k < 9,
    k ≤ (9 * ((8 * k + 17) / 18) + 3) / 4 ∧
      (9 * ((8 * k + 17) / 18) + 3) / 4 - k = [0, 2, 1, 2, 1, 2, 1, 2, 1].getD k 0 := by decide

/-- Settles O41: whole groups of nine bytes have no overrun, and the table is that of the rest. -/
theorem overrunReadsAreAtMostTwo : Obligations.OverrunReadsAreAtMostTwo := by
  intro c n hempty
  obtain ⟨hread, hover⟩ := overrun_table (n % 9) (Nat.mod_lt _ (by decide))
  rw [unitCount_of_no_empty_unit hempty, readCount_by_nines, ← hover]
  omega

end Sys2Proof.Machine

/-! PROOFS. The encoding claims (30_encoding.md): decoder and encoder are inverse (R71 to R80), the opcode table is the
decoder (R83), the reconstruction of a substitute (R82), the ignored bits (R86), the canonical units of an ENCODE result
(R84), and canonical units as text (R90). -/

namespace Sys2Proof.Machine

/-! ### The fields of a byte -/

@[simp] theorem payloadOfByte_byteOfPayload (p : Payload) : payloadOfByte (byteOfPayload p) = p := by
  have hcm : ∀ (cm : BitVec 2) (d : Sextet), (cm ++ d : Byte).extractLsb' 6 2 = cm := by decide
  have hd : ∀ (cm : BitVec 2) (d : Sextet), (cm ++ d : Byte).extractLsb' 0 6 = d := by decide
  simp [payloadOfByte, byteOfPayload, hcm, hd]

@[simp] theorem byteOfPayload_payloadOfByte : ∀ b : Byte, byteOfPayload (payloadOfByte b) = b := by decide

/-- The fields DEC reads from a lead byte put together from them (30_encoding.md R71). -/
theorem lead_fields : ∀ (hi : BitVec 4) (mid : BitVec 2) (t1 t0 : BitVec 1),
    (hi ++ mid ++ t1 ++ t0 : Byte).extractLsb' 4 4 = hi ∧ (hi ++ mid ++ t1 ++ t0 : Byte).extractLsb' 2 2 = mid ∧
      (hi ++ mid ++ t1 ++ t0 : Byte).extractLsb' 1 1 = t1 ∧ (hi ++ mid ++ t1 ++ t0 : Byte).extractLsb' 0 1 = t0 := by
  decide

theorem lead_of_fields : ∀ b : Byte,
    b.extractLsb' 4 4 ++ b.extractLsb' 2 2 ++ b.extractLsb' 1 1 ++ b.extractLsb' 0 1 = b := by decide

theorem lead_tagTun : ∀ (hi : BitVec 4) (mid : BitVec 2),
    (hi ++ mid ++ Cfg.tagTun : Byte) = hi ++ mid ++ 0#1 ++ 1#1 := by decide

theorem lead_tagRsv : ∀ (hi : BitVec 4) (mid : BitVec 2),
    (hi ++ mid ++ Cfg.tagRsv : Byte) = hi ++ mid ++ 1#1 ++ 1#1 := by decide

/-- The fields DEC reads from payload byte 1 of a TPD unit (30_encoding.md R78, R79). -/
theorem skipByte_fields : ∀ (ign : BitVec 7) (skip : BitVec 1),
    (ign ++ skip : Byte).extractLsb' 1 7 = ign ∧ (ign ++ skip : Byte).extractLsb' 0 1 = skip := by decide

theorem skipByte_of_fields : ∀ b : Byte, b.extractLsb' 1 7 ++ b.extractLsb' 0 1 = b := by decide

/-- The fields DEC reads from payload byte 3 of an NCS unit (30_encoding.md R80). -/
theorem infoByte_fields : ∀ (ign : BitVec 4) (special : BitVec 1) (plane : BitVec 2) (flag : BitVec 1),
    (ign ++ special ++ plane ++ flag : Byte).extractLsb' 4 4 = ign ∧
      (ign ++ special ++ plane ++ flag : Byte).extractLsb' 3 1 = special ∧
      (ign ++ special ++ plane ++ flag : Byte).extractLsb' 1 2 = plane ∧
      (ign ++ special ++ plane ++ flag : Byte).extractLsb' 0 1 = flag := by decide

theorem infoByte_of_fields : ∀ b : Byte,
    b.extractLsb' 4 4 ++ b.extractLsb' 3 1 ++ b.extractLsb' 1 2 ++ b.extractLsb' 0 1 = b := by decide

/-! ### Decode and encode -/

/-- What decodes is four bytes with a valid lead nibble, read by the dispatch (41_decode.md R132, R133). -/
theorem decode_ok_iff {c : Cfg} {bytes rest : List Byte} {i : Instr} :
    decode c bytes = .ok (i, rest) ↔
      ∃ b0 b1 b2 b3, bytes = b0 :: b1 :: b2 :: b3 :: rest ∧ b0.extractLsb' 4 4 = c.leadHi ∧
        dispatchUnit c b0 b1 b2 b3 = i := by
  constructor
  · intro h
    unfold decode at h
    split at h
    next b0 b1 b2 b3 _ =>
      split_ifs at h with hlead
      cases h
      exact ⟨b0, b1, b2, b3, rfl, not_not.mp hlead, rfl⟩
    next => cases h
  · rintro ⟨b0, b1, b2, b3, rfl, hlead, rfl⟩
    simp [decode, hlead]

/-- The dispatch reads a well-formed unit back from its four bytes; `wf` keeps a TPD unit from being read as an NCS. -/
theorem dispatchUnit_encode {c : Cfg} {i : Instr} (hwf : i.wf c = true) {b0 b1 b2 b3 : Byte}
    (hbytes : encode c i = [b0, b1, b2, b3]) : dispatchUnit c b0 b1 b2 b3 = i := by
  cases i with
  | reg =>
    cases hbytes
    simp [dispatchUnit, lead_fields]
  | tun =>
    cases hbytes
    simp [dispatchUnit, lead_tagTun, lead_fields]
  | ncs =>
    cases hbytes
    simp [dispatchUnit, lead_tagRsv, lead_fields, infoByte_fields]
  | tpd1 =>
    cases hbytes
    simp [dispatchUnit, lead_tagRsv, lead_fields, skipByte_fields, bne_iff_ne.mp hwf]
  | tpd2 =>
    cases hbytes
    simp [dispatchUnit, lead_tagRsv, lead_fields, skipByte_fields, bne_iff_ne.mp hwf]

theorem encode_shape (i : Instr) : Laws.UnitShape.Statement i := by
  cases i with
  | reg mid tag1 p1 p2 p3 => exact Laws.UnitShape.reg mid tag1 p1 p2 p3
  | tun mid p1 p2 p3 => exact Laws.UnitShape.tun mid p1 p2 p3
  | ncs mid ign2 ign3 special plane flag => exact Laws.UnitShape.ncs mid ign2 ign3 special plane flag
  | tpd1 mid ign1 p2 p3 => exact Laws.UnitShape.tpd1 mid ign1 p2 p3
  | tpd2 mid ign1 ign2 p3 => exact Laws.UnitShape.tpd2 mid ign1 ign2 p3

/-- Settles O1: the encoding is four bytes with a valid lead nibble, from which the dispatch reads the unit back. -/
theorem decodeInvertsEncode : Obligations.DecodeInvertsEncode := by
  intro c i rest hwf
  obtain ⟨b0, b1, b2, b3, hbytes, hlead⟩ := encode_shape i c
  rw [hbytes]
  exact decode_ok_iff.mpr ⟨b0, b1, b2, b3, rfl, hlead, dispatchUnit_encode hwf hbytes⟩

/-- What the dispatch reads is well formed, and with a valid lead nibble its encoding is the four bytes: on each path
the bits the dispatch tested are those the encoder writes, and all others are operands. -/
theorem encode_dispatchUnit {c : Cfg} {b0 b1 b2 b3 : Byte} (hlead : b0.extractLsb' 4 4 = c.leadHi) :
    (dispatchUnit c b0 b1 b2 b3).wf c = true ∧ encode c (dispatchUnit c b0 b1 b2 b3) = [b0, b1, b2, b3] := by
  have hset {b : BitVec 1} (h : b ≠ 0#1) : b = 1#1 := (BitVec.eq_zero_or_eq_one b).resolve_left h
  have hb0 := lead_of_fields b0
  have hb1 := skipByte_of_fields b1
  rw [hlead] at hb0
  unfold dispatchUnit
  split_ifs with ht0 ht1 hncm hskip
  · rw [ht0] at hb0
    simp [Instr.wf, encode, hb0]
  · rw [hset ht0, ht1] at hb0
    simp [Instr.wf, encode, lead_tagTun, hb0]
  · rw [hset ht0, hset ht1] at hb0
    simp [Instr.wf, encode, lead_tagRsv, hb0, hncm, infoByte_of_fields]
  · rw [hset ht0, hset ht1] at hb0
    rw [hskip] at hb1
    simp [Instr.wf, encode, lead_tagRsv, hb0, hb1, hncm]
  · rw [hset ht0, hset ht1] at hb0
    rw [hset hskip] at hb1
    simp [Instr.wf, encode, lead_tagRsv, hb0, hb1, hncm]

/-- Settles O2: what decodes is what the dispatch reads from four bytes with a valid lead nibble. -/
theorem encodeInvertsDecode : Obligations.EncodeInvertsDecode := by
  intro c bytes rest i h
  obtain ⟨b0, b1, b2, b3, rfl, hlead, rfl⟩ := decode_ok_iff.mp h
  obtain ⟨hwf, hbytes⟩ := encode_dispatchUnit hlead
  exact ⟨hwf, by rw [hbytes]; rfl⟩

/-- Settles O6: each word is evaluated. -/
theorem writtenWordsDecode : Obligations.WrittenWordsDecode := by
  unfold Obligations.WrittenWordsDecode
  decide

/-- Settles O13: every meaning is the unit step over the consumed positions, which reads nothing else of the unit. -/
theorem ignoredBitsHaveNoEffect : Obligations.IgnoredBitsHaveNoEffect := by
  intro i j s h
  rw [exec_eq_decUnit, exec_eq_decUnit, h]

/-! ### Words of the opcode table -/

theorem word_eq_iff (x y : BitVec 32) :
    x = y ↔ x.extractLsb' 24 8 = y.extractLsb' 24 8 ∧ x.extractLsb' 16 8 = y.extractLsb' 16 8 ∧
      x.extractLsb' 8 8 = y.extractLsb' 8 8 ∧ x.extractLsb' 0 8 = y.extractLsb' 0 8 := by
  refine ⟨by rintro rfl; simp, fun h => ?_⟩
  simp only [← BitVec.toNat_inj, BitVec.extractLsb'_toNat, Nat.shiftRight_eq_div_pow] at h ⊢
  omega

theorem tableBytes_toNat (w : BitVec 32) :
    tableBytes 32 w.toNat =
      [w.extractLsb' 24 8, w.extractLsb' 16 8, w.extractLsb' 8 8, w.extractLsb' 0 8] := by
  rw [tableBytes, Nat.mod_eq_of_lt w.isLt]
  rfl

/-- A word fits a pair of the table exactly when each of its bytes does. -/
theorem word_fits {w : BitVec 32} {b0 b1 b2 b3 : Byte} (hw : tableBytes 32 w.toNat = [b0, b1, b2, b3])
    (mask val : BitVec 32) :
    (w &&& mask == val) =
      (b0 &&& mask.extractLsb' 24 8 == val.extractLsb' 24 8 && b1 &&& mask.extractLsb' 16 8 == val.extractLsb' 16 8 &&
        b2 &&& mask.extractLsb' 8 8 == val.extractLsb' 8 8 && b3 &&& mask.extractLsb' 0 8 == val.extractLsb' 0 8) := by
  rw [tableBytes_toNat] at hw
  cases hw
  rw [Bool.eq_iff_iff]
  simp [word_eq_iff (w &&& mask), BitVec.extractLsb'_and, and_assoc]

/-- A word that decodes to a unit holds the unit's encoding. -/
theorem decodeTableWord_eq_some {w : BitVec 32} {i : Instr} (h : decodeTableWord 32 w.toNat = some i) :
    i.wf Cfg.decided = true ∧ tableBytes 32 w.toNat = encode Cfg.decided i := by
  simp only [decodeTableWord, lt_irrefl, if_false] at h
  split at h
  next _ _ hdecode =>
    cases h
    rw [tableBytes_toNat] at hdecode ⊢
    obtain ⟨_, _, _, _, hbytes, hlead, rfl⟩ := decode_ok_iff.mp hdecode
    cases hbytes
    exact (encode_dispatchUnit hlead).imp_right Eq.symm
  next => cases h

/-- A word is refused for its lead nibble only: it is long enough. -/
theorem decodeTableWord_eq_none {w : BitVec 32} (h : decodeTableWord 32 w.toNat = none) :
    (w.extractLsb' 24 8).extractLsb' 4 4 ≠ 0b1111#4 := by
  simp only [decodeTableWord, lt_irrefl, if_false] at h
  split at h
  next => cases h
  next _ hdecode =>
    intro hlead
    rw [tableBytes_toNat] at hdecode
    simp [decode, hlead, Cfg.decided] at hdecode

/-! ### The dispatch pairs of the opcode table -/

/-- The table's row of a unit's variant (30_encoding.md R83). -/
def tableRow : Instr → OpRow
  | .reg .. => opTable[0]
  | .tun .. => opTable[1]
  | .ncs .. => opTable[2]
  | .tpd1 .. => opTable[3]
  | .tpd2 .. => opTable[4]

theorem tableRow_mnemonic (i : Instr) : (tableRow i).mnemonic = i.mnemonic := by
  cases i <;> rfl

/-- The values the table is made for (00_scope.md R7, R8; log 2). -/
theorem decided_values :
    Cfg.decided.leadHi = 0xF#4 ∧ Cfg.decided.leadMid = 0#2 ∧ Cfg.decided.cont = 0b10#2 ∧ Cfg.decided.tagReg = 0b10#2 ∧
      Cfg.decided.ncm = 0x82#8 ∧ Cfg.decided.mark = 0x80#8 ∧ Cfg.decided.skip1 = 0x80#8 ∧
      Cfg.decided.skip2 = 0x81#8 := by decide

/-- The lead byte of the rows' dispatch pairs selects the tag, bit by bit. -/
theorem lead_dispatchPairs : ∀ (mid : BitVec 2) (t1 t0 : BitVec 1),
    ((0xF#4 ++ mid ++ t1 ++ t0 : Byte) &&& 0xF1#8 == 0xF0#8) = (t0 == 0#1) ∧
      ((0xF#4 ++ mid ++ t1 ++ t0 : Byte) &&& 0xF3#8 == 0xF1#8) = (t1 == 0#1 && t0 == 1#1) ∧
      ((0xF#4 ++ mid ++ t1 ++ t0 : Byte) &&& 0xF3#8 == 0xF3#8) = (t1 == 1#1 && t0 == 1#1) := by decide

theorem badLead_dispatchPairs : ∀ b : Byte, b.extractLsb' 4 4 ≠ 0b1111#4 →
    (b &&& 0xF1#8 == 0xF0#8) = false ∧ (b &&& 0xF3#8 == 0xF1#8) = false ∧ (b &&& 0xF3#8 == 0xF3#8) = false := by decide

theorem and_fullByte (b : Byte) : b &&& 0xFF#8 = b := BitVec.and_allOnes

theorem skipByte_and_one : ∀ (ign : BitVec 7) (skip : BitVec 1), (ign ++ skip : Byte) &&& 1#8 = skip.setWidth 8 := by
  decide

/-- The first row that fits the word of a well-formed unit is its variant's. -/
theorem opRow_of_encode {w : BitVec 32} {i : Instr} (hwf : i.wf Cfg.decided = true)
    (hw : tableBytes 32 w.toNat = encode Cfg.decided i) : opRow w = some (tableRow i) := by
  cases i with
  | reg => simp [opRow, opTable, tableRow, word_fits hw, lead_dispatchPairs, decided_values]
  | tun => simp [opRow, opTable, tableRow, word_fits hw, lead_tagTun, lead_dispatchPairs, decided_values]
  | ncs => simp [opRow, opTable, tableRow, word_fits hw, lead_tagRsv, lead_dispatchPairs, decided_values]
  | tpd1 =>
    have hncm : _ ≠ 0x82#8 := bne_iff_ne.mp hwf
    simp [opRow, opTable, tableRow, word_fits hw, lead_tagRsv, lead_dispatchPairs, decided_values, skipByte_and_one,
      and_fullByte, hncm]
  | tpd2 =>
    have hncm : _ ≠ 0x82#8 := bne_iff_ne.mp hwf
    simp [opRow, opTable, tableRow, word_fits hw, lead_tagRsv, lead_dispatchPairs, decided_values, skipByte_and_one,
      and_fullByte, hncm]

theorem opRow_of_badLead {w : BitVec 32} (h : (w.extractLsb' 24 8).extractLsb' 4 4 ≠ 0b1111#4) : opRow w = none := by
  simp [opRow, opTable, word_fits (tableBytes_toNat w), badLead_dispatchPairs _ h]

/-- Settles O4: a word that decodes holds its unit's encoding, which fits its variant's row first; any other word has a
bad lead nibble, which fits no row. -/
theorem opTableRowIsTheVariant : Obligations.OpTableRowIsTheVariant := by
  intro w
  cases h : decodeTableWord 32 w.toNat with
  | none => rw [opRow_of_badLead (decodeTableWord_eq_none h)]; rfl
  | some i =>
    obtain ⟨hwf, hw⟩ := decodeTableWord_eq_some h
    simp [opRow_of_encode hwf hw, tableRow_mnemonic]

/-! ### The `wf` and `canon` pairs of the opcode table -/

theorem payload_pair (p : Payload) : (byteOfPayload p &&& 0xC0#8 == 0x80#8) = (p.cm == 0b10#2) := by
  have h : ∀ (cm : BitVec 2) (d : Sextet), ((cm ++ d : Byte) &&& 0xC0#8 == 0x80#8) = (cm == 0b10#2) := by decide
  exact h p.cm p.d

theorem lead_canonPairs : ∀ (mid : BitVec 2) (t1 : BitVec 1),
    ((0xF#4 ++ mid ++ t1 ++ 0#1 : Byte) == 0xF2#8) = (mid == 0#2 && t1 ++ 0#1 == 0b10#2) ∧
      ((0xF#4 ++ mid ++ t1 ++ 1#1 : Byte) == 0xF1#8) = (mid == 0#2 && t1 == 0#1) ∧
      ((0xF#4 ++ mid ++ t1 ++ 1#1 : Byte) == 0xF3#8) = (mid == 0#2 && t1 == 1#1) := by decide

theorem infoByte_canonPair : ∀ (ign : BitVec 4) (special : BitVec 1) (plane : BitVec 2) (flag : BitVec 1),
    ((ign ++ special ++ plane ++ flag : Byte) &&& 0xF0#8 == 0x80#8) = (ign == 0b1000#4) := by decide

theorem accepted_eq_wfPair {w : BitVec 32} {i : Instr} (hw : tableBytes 32 w.toNat = encode Cfg.decided i) :
    i.accepted Cfg.decided = (w &&& (tableRow i).wfMask == (tableRow i).wfMatch) := by
  cases i with
  | reg => simp [tableRow, opTable, word_fits hw, Instr.accepted, payload_pair, decided_values]
  | tun => simp [tableRow, opTable, word_fits hw, Instr.accepted, payload_pair, decided_values]
  | ncs => simp [tableRow, opTable, Instr.accepted]
  | tpd1 => simp [tableRow, opTable, word_fits hw, Instr.accepted, payload_pair, decided_values]
  | tpd2 => simp [tableRow, opTable, word_fits hw, Instr.accepted, payload_pair, decided_values]

theorem canonical_eq_canonPair {w : BitVec 32} {i : Instr} (hw : tableBytes 32 w.toNat = encode Cfg.decided i) :
    i.canonical Cfg.decided = (w &&& (tableRow i).canonMask == (tableRow i).canonMatch && !noncharUnit i) := by
  cases i with
  | reg =>
    simp [tableRow, opTable, word_fits hw, Instr.canonical, Instr.accepted, noncharUnit, payload_pair, lead_canonPairs,
      decided_values, and_fullByte, Bool.and_assoc]
  | tun =>
    simp [tableRow, opTable, word_fits hw, Instr.canonical, Instr.accepted, noncharUnit, payload_pair, lead_tagTun,
      lead_canonPairs, decided_values, and_fullByte, Bool.and_assoc]
  | ncs =>
    simp [tableRow, opTable, word_fits hw, Instr.canonical, noncharUnit, lead_tagRsv, lead_canonPairs,
      infoByte_canonPair, decided_values, and_fullByte, Bool.and_assoc]
  | tpd1 =>
    simp [tableRow, opTable, word_fits hw, Instr.canonical, Instr.accepted, noncharUnit, payload_pair, lead_tagRsv,
      lead_canonPairs, decided_values, and_fullByte, Bool.and_assoc]
  | tpd2 =>
    simp [tableRow, opTable, word_fits hw, Instr.canonical, Instr.accepted, noncharUnit, payload_pair, lead_tagRsv,
      lead_canonPairs, decided_values, and_fullByte, Bool.and_assoc]

/-- Settles O5: the word holds its unit's encoding and its row is the variant's, so each pair is read byte by byte. -/
theorem opTablePairsMeanAcceptedAndCanonical : Obligations.OpTablePairsMeanAcceptedAndCanonical := by
  intro w r i hr hi
  obtain ⟨hwf, hw⟩ := decodeTableWord_eq_some hi
  cases hr.symm.trans (opRow_of_encode hwf hw)
  exact ⟨accepted_eq_wfPair hw, canonical_eq_canonPair hw⟩

/-! ### Bytes under the continuation marker -/

theorem naturalByte_eq (c : Cfg) (v : Sextet) : naturalByte c v = byteOfPayload ⟨c.cont, v⟩ := by
  have h : ∀ (m : BitVec 2) (v : Sextet), (m.setWidth 8 <<< 6 ||| v.setWidth 8 : Byte) = m ++ v := by decide
  exact h c.cont v

@[simp] theorem payloadOfByte_naturalByte (c : Cfg) (v : Sextet) : payloadOfByte (naturalByte c v) = ⟨c.cont, v⟩ := by
  rw [naturalByte_eq, payloadOfByte_byteOfPayload]

@[simp] theorem naturalByte_inj (c : Cfg) (v w : Sextet) : naturalByte c v = naturalByte c w ↔ v = w := by
  refine ⟨fun h => ?_, congrArg _⟩
  simpa using congrArg payloadOfByte h

/-- The parts of a natural byte that the collision test and the NCS rewrite read are parts of its field. -/
theorem naturalByte_parts (c : Cfg) (v : Sextet) :
    (naturalByte c v).extractLsb' 0 4 = v.extractLsb' 0 4 ∧ (naturalByte c v).extractLsb' 4 2 = v.extractLsb' 4 2 ∧
      (naturalByte c v).extractLsb' 0 1 = v.extractLsb' 0 1 := by
  have h : ∀ (m : BitVec 2) (v : Sextet), (m ++ v : Byte).extractLsb' 0 4 = v.extractLsb' 0 4 ∧
      (m ++ v : Byte).extractLsb' 4 2 = v.extractLsb' 4 2 ∧ (m ++ v : Byte).extractLsb' 0 1 = v.extractLsb' 0 1 := by
    decide
  rw [naturalByte_eq]
  exact h c.cont v

theorem ncsByte1_eq (c : Cfg) (plane : BitVec 2) : ncsByte1 c plane = naturalByte c (plane ++ 0b1111#4) := by
  have h : ∀ p : BitVec 2, (p.setWidth 8 <<< 4 ||| 0x0F#8 : Byte) = (p ++ 0b1111#4 : Sextet).setWidth 8 := by decide
  rw [ncsByte1, BitVec.or_assoc, h, naturalByte]

theorem ncsByte2_eq (c : Cfg) : ncsByte2 c = naturalByte c 0b111111#6 := rfl

theorem ncsByte3_eq (c : Cfg) (flag : BitVec 1) : ncsByte3 c flag = naturalByte c (0b11111#5 ++ flag) := by
  have h : ∀ f : BitVec 1, (0x3E#8 ||| f.setWidth 8 : Byte) = (0b11111#5 ++ f : Sextet).setWidth 8 := by decide
  rw [ncsByte3, BitVec.or_assoc, h, naturalByte]

/-- Settles O14: each reconstructed byte is a field under the marker. -/
theorem substituteOperandsAreReconstructed : Obligations.SubstituteOperandsAreReconstructed := by
  intro c mid ign2 ign3 special plane flag
  refine ⟨?_, rfl⟩
  simp only [consumedOperands, ncsOperands, allOperands, ncsByte1_eq, ncsByte2_eq, ncsByte3_eq,
    payloadOfByte_naturalByte]

/-! ### The units ENC can emit: their bytes (30_encoding.md R88) -/

theorem lead_eq (c : Cfg) (t : BitVec 2) : c.lead t = c.leadHi ++ c.leadMid ++ t := by
  have h : ∀ (hi : BitVec 4) (mid t : BitVec 2),
      (hi.setWidth 8 <<< 4 ||| mid.setWidth 8 <<< 2 ||| t.setWidth 8 : Byte) = hi ++ mid ++ t := by decide
  exact h c.leadHi c.leadMid t

theorem lead_of_even_tag (c : Cfg) {t : BitVec 2} (h : t.extractLsb' 0 1 = 0#1) :
    c.leadHi ++ c.leadMid ++ t.extractLsb' 1 1 ++ 0#1 = c.lead t := by
  have hsplit : ∀ (hi : BitVec 4) (mid t : BitVec 2), t.extractLsb' 0 1 = 0#1 →
      (hi ++ mid ++ t.extractLsb' 1 1 ++ 0#1 : Byte) = hi ++ mid ++ t := by decide
  rw [lead_eq, hsplit _ _ _ h]

theorem skip1_fields (c : Cfg) : c.skip1.extractLsb' 1 7 ++ 0#1 = c.skip1 := by
  have h : ∀ m : BitVec 2,
      (m.setWidth 8 <<< 6 ||| 0#8 : Byte).extractLsb' 1 7 ++ 0#1 = m.setWidth 8 <<< 6 ||| 0#8 := by decide
  exact h c.cont

theorem skip2_fields (c : Cfg) : c.skip2.extractLsb' 1 7 ++ 1#1 = c.skip2 := by
  have h : ∀ m : BitVec 2,
      (m.setWidth 8 <<< 6 ||| 1#8 : Byte).extractLsb' 1 7 ++ 1#1 = m.setWidth 8 <<< 6 ||| 1#8 := by decide
  exact h c.cont

theorem encode_mkReg {c : Cfg} (htag : c.tagReg.extractLsb' 0 1 = 0#1) (d1 d2 d3 : Sextet) :
    encode c (Instr.mkReg c d1 d2 d3) =
      [c.lead c.tagReg, naturalByte c d1, naturalByte c d2, naturalByte c d3] := by
  simp only [Instr.mkReg, encode, lead_of_even_tag c htag, naturalByte_eq]

theorem encode_mkTun (c : Cfg) (d1 d2 d3 : Sextet) :
    encode c (Instr.mkTun c d1 d2 d3) =
      [c.lead Cfg.tagTun, naturalByte c d1, naturalByte c d2, naturalByte c d3] := by
  simp only [Instr.mkTun, encode, lead_eq, naturalByte_eq]

theorem encode_mkNcs (c : Cfg) (special : BitVec 1) (plane : BitVec 2) (flag : BitVec 1) :
    encode c (Instr.mkNcs c special plane flag) =
      [c.lead Cfg.tagRsv, c.ncm, c.mark, naturalByte c (0#2 ++ special ++ plane ++ flag)] := by
  have h : ∀ (m : BitVec 2) (s : BitVec 1) (p : BitVec 2) (f : BitVec 1),
      (m ++ 0#2 ++ s ++ p ++ f : Byte) = m ++ (0#2 ++ s ++ p ++ f : Sextet) := by decide
  simp only [Instr.mkNcs, encode, lead_eq, naturalByte_eq, byteOfPayload, h]

theorem encode_mkTpd1 (c : Cfg) (d2 d3 : Sextet) :
    encode c (Instr.mkTpd1 c d2 d3) = [c.lead Cfg.tagRsv, c.skip1, naturalByte c d2, naturalByte c d3] := by
  simp only [Instr.mkTpd1, encode, lead_eq, naturalByte_eq, skip1_fields]

theorem encode_mkTpd2 (c : Cfg) (d3 : Sextet) :
    encode c (Instr.mkTpd2 c d3) = [c.lead Cfg.tagRsv, c.skip2, c.mark, naturalByte c d3] := by
  simp only [Instr.mkTpd2, encode, lead_eq, naturalByte_eq, skip2_fields]

/-! ### The units ENC can emit are the canonical ones -/

theorem mkTpd1_wf {c : Cfg} (h : c.ncm ≠ c.skip1) (d2 d3 : Sextet) : (Instr.mkTpd1 c d2 d3).wf c = true := by
  simp [Instr.mkTpd1, Instr.wf, skip1_fields, h.symm]

theorem mkTpd2_wf {c : Cfg} (h : c.ncm ≠ c.skip2) (d3 : Sextet) : (Instr.mkTpd2 c d3).wf c = true := by
  simp [Instr.mkTpd2, Instr.wf, skip2_fields, h.symm]

theorem mkReg_canonical {c : Cfg} (htag : c.tagReg.extractLsb' 0 1 = 0#1) {d1 d2 d3 : Sextet}
    (hd : Instr.noncharFields d1 d2 d3 = false) : (Instr.mkReg c d1 d2 d3).canonical c = true := by
  have hsplit : ∀ t : BitVec 2, t.extractLsb' 0 1 = 0#1 → t.extractLsb' 1 1 ++ 0#1 = t := by decide
  simp [Instr.mkReg, Instr.canonical, Instr.accepted, hsplit _ htag, hd]

theorem mkTun_canonical (c : Cfg) {d1 d2 d3 : Sextet} (hd : Instr.noncharFields d1 d2 d3 = false) :
    (Instr.mkTun c d1 d2 d3).canonical c = true := by
  simp [Instr.mkTun, Instr.canonical, Instr.accepted, hd]

theorem mkNcs_canonical (c : Cfg) (special : BitVec 1) (plane : BitVec 2) (flag : BitVec 1) :
    (Instr.mkNcs c special plane flag).canonical c = true := by
  simp [Instr.mkNcs, Instr.canonical]

theorem mkTpd1_canonical (c : Cfg) (d2 d3 : Sextet) : (Instr.mkTpd1 c d2 d3).canonical c = true := by
  simp [Instr.mkTpd1, Instr.canonical, Instr.accepted, skip1_fields]

theorem mkTpd2_canonical (c : Cfg) (d3 : Sextet) : (Instr.mkTpd2 c d3).canonical c = true := by
  simp [Instr.mkTpd2, Instr.canonical, Instr.accepted, skip2_fields]

/-- A canonical unit is one that R88 writes, a REG or TUN with fields that are no noncharacter pattern. -/
theorem canonical_cases {c : Cfg} {i : Instr} (h : i.canonical c = true) :
    (∃ d1 d2 d3, i = Instr.mkReg c d1 d2 d3 ∧ Instr.noncharFields d1 d2 d3 = false) ∨
      (∃ d1 d2 d3, i = Instr.mkTun c d1 d2 d3 ∧ Instr.noncharFields d1 d2 d3 = false) ∨
      (∃ special plane flag, i = Instr.mkNcs c special plane flag) ∨
      (∃ d2 d3, i = Instr.mkTpd1 c d2 d3) ∨ ∃ d3, i = Instr.mkTpd2 c d3 := by
  rcases i with ⟨mid, tag1, ⟨cm1, d1⟩, ⟨cm2, d2⟩, ⟨cm3, d3⟩⟩ | ⟨mid, ⟨cm1, d1⟩, ⟨cm2, d2⟩, ⟨cm3, d3⟩⟩ |
    ⟨mid, ign2, ign3, special, plane, flag⟩ | ⟨mid, ign1, ⟨cm2, d2⟩, ⟨cm3, d3⟩⟩ | ⟨mid, ign1, ign2, ⟨cm3, d3⟩⟩ <;>
    simp only [Instr.canonical, Instr.accepted, Bool.and_eq_true, beq_iff_eq, Bool.not_eq_true'] at h
  · obtain ⟨⟨⟨rfl, htag⟩, ⟨rfl, rfl⟩, rfl⟩, hd⟩ := h
    have htag1 : ∀ t : BitVec 1, (t ++ 0#1 : BitVec 2).extractLsb' 1 1 = t := by decide
    exact .inl ⟨d1, d2, d3, by rw [Instr.mkReg, ← htag, htag1], hd⟩
  · obtain ⟨⟨rfl, ⟨rfl, rfl⟩, rfl⟩, hd⟩ := h
    exact .inr (.inl ⟨d1, d2, d3, rfl, hd⟩)
  · obtain ⟨⟨rfl, rfl⟩, rfl⟩ := h
    exact .inr (.inr (.inl ⟨special, plane, flag, rfl⟩))
  · obtain ⟨⟨rfl, hskip⟩, rfl, rfl⟩ := h
    obtain ⟨hign, -⟩ := skipByte_fields ign1 0#1
    exact .inr (.inr (.inr (.inl ⟨d2, d3, by rw [Instr.mkTpd1, ← hskip, hign]⟩)))
  · obtain ⟨⟨⟨rfl, hskip⟩, rfl⟩, rfl⟩ := h
    obtain ⟨hign, -⟩ := skipByte_fields ign1 1#1
    exact .inr (.inr (.inr (.inr ⟨d3, by rw [Instr.mkTpd2, ← hskip, hign]⟩)))

/-! ### Collision and substitution -/

/-- The collision test on natural bytes reads their fields only (40_encode.md R111). -/
theorem collides_naturalByte (c : Cfg) (d1 d2 d3 : Sextet) :
    collides c (naturalByte c d1) (naturalByte c d2) (naturalByte c d3) = Instr.noncharFields d1 d2 d3 := by
  have hd3 : ∀ d : Sextet, (d = 0x3F#6 ∨ d = 0x3E#6) ↔ d.extractLsb' 1 5 = 0b11111#5 := by decide
  have hall : c.markAll = naturalByte c 0x3F#6 := rfl
  have hall1 : c.markAll1 = naturalByte c 0x3E#6 := rfl
  rw [Bool.eq_iff_iff]
  simp only [collides, Instr.noncharFields, hall, hall1, naturalByte_parts, Bool.and_eq_true, Bool.or_eq_true,
    beq_iff_eq, naturalByte_inj, hd3]
  tauto

/-- A payload byte 1 that is a skip marker cannot collide (40_encode.md R113). -/
theorem collides_skip1 (c : Cfg) (b2 b3 : Byte) : collides c c.skip1 b2 b3 = false := by
  have h : c.skip1 = naturalByte c 0#6 := rfl
  simp [collides, h, naturalByte_parts]

theorem collides_skip2 (c : Cfg) (b2 b3 : Byte) : collides c c.skip2 b2 b3 = false := by
  have h : c.skip2 = naturalByte c 1#6 := rfl
  simp [collides, h, naturalByte_parts]

theorem settleUnit_of_not_collides {c : Cfg} {d : Draft} (h : collides c d.p1 d.p2 d.p3 = false) :
    settleUnit c d = d := by
  simp [settleUnit, h]

/-- The rewrite of a unit of natural bytes is the NCS unit of its tag bit, plane and flag (40_encode.md R112). -/
theorem substituteUnit_bytes (c : Cfg) (tag : BitVec 2) (d1 d2 d3 : Sextet) :
    draftBytes c (substituteUnit c ⟨tag, naturalByte c d1, naturalByte c d2, naturalByte c d3⟩) =
      encode c (Instr.mkNcs c (tag.extractLsb' 0 1) (d1.extractLsb' 4 2) (d3.extractLsb' 0 1)) := by
  have hinfo : ∀ (s : BitVec 1) (p : BitVec 2) (f : BitVec 1),
      (s.setWidth 8 <<< 3 ||| (p.setWidth 8 <<< 1 ||| f.setWidth 8) : Byte) =
        (0#2 ++ s ++ p ++ f : Sextet).setWidth 8 := by decide
  simp only [encode_mkNcs, draftBytes, substituteUnit, naturalByte_parts]
  rw [BitVec.or_assoc, BitVec.or_assoc, hinfo, naturalByte]

/-! ### The units of an ENCODE result -/

/-- The substitute of a unit that is a noncharacter pattern, any other unit as it is (40_encode.md R111, R112). -/
def settledInstr (c : Cfg) (special : BitVec 1) (d1 d2 d3 : Sextet) (i : Instr) : Instr :=
  if Instr.noncharFields d1 d2 d3 then Instr.mkNcs c special (d1.extractLsb' 4 2) (d3.extractLsb' 0 1) else i

/-- The unit ENC makes of three natural fields (40_encode.md R106 to R112). -/
def emittedInstr (c : Cfg) (final : Bool) (r : Nat) (d1 d2 d3 : Sextet) : Instr :=
  if final then
    if r = 0 ∨ 12 ≤ r then settledInstr c 1#1 d1 d2 d3 (Instr.mkTun c d1 d2 d3)
    else if 6 ≤ r then Instr.mkTpd1 c d1 d2
    else Instr.mkTpd2 c d1
  else settledInstr c 0#1 d1 d2 d3 (Instr.mkReg c d1 d2 d3)

theorem settleUnit_bytes {c : Cfg} {tag : BitVec 2} {d1 d2 d3 : Sextet} {i : Instr}
    (hi : encode c i = [c.lead tag, naturalByte c d1, naturalByte c d2, naturalByte c d3]) :
    draftBytes c (settleUnit c ⟨tag, naturalByte c d1, naturalByte c d2, naturalByte c d3⟩) =
      encode c (settledInstr c (tag.extractLsb' 0 1) d1 d2 d3 i) := by
  unfold settleUnit settledInstr
  rw [collides_naturalByte]
  split_ifs
  · exact substituteUnit_bytes c tag d1 d2 d3
  · exact hi.symm

/-- The bytes ENC emits are the encoding of the unit it makes. -/
theorem emitUnit_eq_encode {c : Cfg} (htag : c.tagReg.extractLsb' 0 1 = 0#1) (final : Bool) (r : Nat)
    (d1 d2 d3 : Sextet) : emitUnit c final r d1 d2 d3 = encode c (emittedInstr c final r d1 d2 d3) := by
  unfold emitUnit formUnit emittedInstr
  split_ifs with hfinal htun htpd1
  · rw [formFinal_of_tun c htun]
    exact settleUnit_bytes (encode_mkTun c d1 d2 d3)
  · rw [formFinal_of_tpd1 c htpd1 (by omega), settleUnit_of_not_collides (collides_skip1 ..), encode_mkTpd1]
    rfl
  · rw [formFinal_of_tpd2 c (by omega) (by omega), settleUnit_of_not_collides (collides_skip2 ..), encode_mkTpd2]
    rfl
  · rw [← htag]
    exact settleUnit_bytes (encode_mkReg htag d1 d2 d3)

theorem emittedInstr_wf_canonical {c : Cfg} (h : c.Legal) (final : Bool) (r : Nat) (d1 d2 d3 : Sextet) :
    (emittedInstr c final r d1 d2 d3).wf c = true ∧ (emittedInstr c final r d1 d2 d3).canonical c = true := by
  obtain ⟨htag, hskip1, hskip2⟩ := h
  unfold emittedInstr settledInstr
  split_ifs with hfinal htun hd htpd1 hd
  · exact ⟨rfl, mkNcs_canonical ..⟩
  · exact ⟨rfl, mkTun_canonical c (eq_false_of_ne_true hd)⟩
  · exact ⟨mkTpd1_wf hskip1 .., mkTpd1_canonical ..⟩
  · exact ⟨mkTpd2_wf hskip2 _, mkTpd2_canonical ..⟩
  · exact ⟨rfl, mkNcs_canonical ..⟩
  · exact ⟨rfl, mkReg_canonical htag (eq_false_of_ne_true hd)⟩

theorem emittedInstr_final (c : Cfg) (r : Nat) (d1 d2 d3 : Sextet) :
    terminalUnit (emittedInstr c true r d1 d2 d3) = true := by
  simp only [emittedInstr, settledInstr, if_true]
  split_ifs <;> rfl

theorem emittedInstr_inner (c : Cfg) (r : Nat) (d1 d2 d3 : Sextet) :
    innerUnit (emittedInstr c false r d1 d2 d3) = true := by
  simp only [emittedInstr, settledInstr, Bool.false_eq_true, if_false]
  split_ifs <;> rfl

theorem lastUnit_of_terminalUnit {i : Instr} (h : terminalUnit i = true) : lastUnit i = true := by
  cases i with
  | reg => exact h
  | tun => rfl
  | ncs => rfl
  | tpd1 => rfl
  | tpd2 => rfl

/-- Unit `u` of the encoding of `src`, whose bytes are `encodedUnit` (40_encode.md R105 to R112). -/
def encodedInstr (c : Cfg) (src : List Byte) (u : Nat) : Instr :=
  emittedInstr c (u + 1 == unitCount c src.length) (8 * src.length % 18)
    (naturalField src (3 * u)) (naturalField src (3 * u + 1)) (naturalField src (3 * u + 2))

/-- The units of the encoding of `src`, in order. -/
def encodedInstrs (c : Cfg) (src : List Byte) : List Instr :=
  (List.range (unitCount c src.length)).map (encodedInstr c src)

@[simp] theorem encodedInstrs_length (c : Cfg) (src : List Byte) :
    (encodedInstrs c src).length = unitCount c src.length := by simp [encodedInstrs]

theorem encodedUnit_eq_encode {c : Cfg} (htag : c.tagReg.extractLsb' 0 1 = 0#1) (src : List Byte) (u : Nat) :
    encodedUnit c src u = encode c (encodedInstr c src u) :=
  emitUnit_eq_encode htag ..

theorem encodeAll_eq_encode {c : Cfg} (htag : c.tagReg.extractLsb' 0 1 = 0#1) (src : List Byte) :
    encodeAll c src = (encodedInstrs c src).flatMap (encode c) := by
  rw [encodeAll, encodedInstrs, List.flatMap_map]
  exact congrArg (List.flatMap · _) (funext (encodedUnit_eq_encode htag src))

/-- The position rule of an ENCODE result, with the stricter last unit (30_encoding.md R84 (b), 40_encode.md R107). -/
theorem encodedInstrs_position {c : Cfg} {src : List Byte} {k : Nat} {i : Instr}
    (h : (encodedInstrs c src)[k]? = some i) :
    if k + 1 = unitCount c src.length then terminalUnit i = true else innerUnit i = true := by
  simp only [encodedInstrs, List.getElem?_map, Option.map_eq_some_iff, List.getElem?_eq_some_iff,
    List.getElem_range] at h
  obtain ⟨_, ⟨-, rfl⟩, rfl⟩ := h
  unfold encodedInstr
  split_ifs with hk
  · rw [beq_iff_eq.mpr hk]
    exact emittedInstr_final ..
  · rw [beq_eq_false_iff_ne.mpr hk]
    exact emittedInstr_inner ..

theorem encodedInstrs_canonicalStream {c : Cfg} (h : c.Legal) (src : List Byte) :
    CanonicalStream c (encodedInstrs c src) := by
  refine ⟨fun i hi => ?_, fun k i hk => ?_⟩
  · obtain ⟨u, -, rfl⟩ := List.mem_map.mp hi
    exact emittedInstr_wf_canonical h ..
  · have hpos := encodedInstrs_position hk
    rw [encodedInstrs_length]
    split_ifs at hpos ⊢
    · exact lastUnit_of_terminalUnit hpos
    · exact hpos

theorem encodedInstrs_last {c : Cfg} {src : List Byte} {i : Instr} (h : (encodedInstrs c src).getLast? = some i) :
    terminalUnit i = true := by
  rw [List.getLast?_eq_getElem?] at h
  obtain ⟨hlt, -⟩ := List.getElem?_eq_some_iff.mp h
  have hpos := encodedInstrs_position h
  rw [encodedInstrs_length] at hlt hpos
  rwa [if_pos (by omega)] at hpos

/-- Settles O42: the units are those ENC makes of the natural fields of `src`. -/
theorem encodeResultIsCanonical : Obligations.EncodeResultIsCanonical := by
  intro c src hlegal
  have ⟨htag, _, _⟩ := hlegal
  exact ⟨encodedInstrs c src, encodeAll_eq_encode htag src, encodedInstrs_length c src,
    encodedInstrs_canonicalStream hlegal src, fun _ hi => encodedInstrs_last hi⟩

/-! ### Canonical units as text (30_encoding.md R90) -/

theorem decided_lead_toNat : ∀ t : BitVec 2, (Cfg.decided.lead t).toNat = 240 + t.toNat := by decide

theorem decided_naturalByte_toNat : ∀ d : Sextet, (naturalByte Cfg.decided d).toNat = 128 + d.toNat := by decide

/-- The code point that a lead tag and three fields stand for under the decided configuration. -/
def fieldsCodePoint (t : BitVec 2) (d1 d2 d3 : Sextet) : Nat :=
  2 ^ 18 * t.toNat + 2 ^ 12 * d1.toNat + 2 ^ 6 * d2.toNat + d3.toNat

theorem codePoint_eq_fieldsCodePoint (t : BitVec 2) (d1 d2 d3 : Sextet) :
    codePoint (Cfg.decided.lead t) (naturalByte Cfg.decided d1) (naturalByte Cfg.decided d2)
      (naturalByte Cfg.decided d3) = fieldsCodePoint t d1 d2 d3 := by
  simp only [codePoint, fieldsCodePoint, decided_lead_toNat, decided_naturalByte_toNat]
  omega

/-- A tag other than 00 puts the code point in planes 4 to 15, so it is neither overlong nor out of range. -/
theorem utf8WellFormed_of_tag_ne_zero {t : BitVec 2} (ht : t ≠ 0#2) (d1 d2 d3 : Sextet) :
    utf8WellFormed (Cfg.decided.lead t) (naturalByte Cfg.decided d1) (naturalByte Cfg.decided d2)
      (naturalByte Cfg.decided d3) = true := by
  have hpos : t.toNat ≠ 0 := fun h => ht (BitVec.eq_of_toNat_eq h)
  simp only [utf8WellFormed, codePoint_eq_fieldsCodePoint, fieldsCodePoint, decided_lead_toNat,
    decided_naturalByte_toNat, Bool.and_eq_true, beq_iff_eq, decide_eq_true_eq]
  omega

theorem noncharFields_iff (d1 d2 d3 : Sextet) :
    Instr.noncharFields d1 d2 d3 = true ↔ d1.toNat % 16 = 15 ∧ d2.toNat = 63 ∧ d3.toNat / 2 = 31 := by
  simp only [Instr.noncharFields, Bool.and_eq_true, beq_iff_eq, ← BitVec.toNat_inj, BitVec.extractLsb'_toNat,
    Nat.shiftRight_eq_div_pow, BitVec.toNat_ofNat]
  omega

/-- The last two code points of each plane are the noncharacter patterns. -/
theorem fieldsCodePoint_mod_lt (t : BitVec 2) {d1 d2 d3 : Sextet} (hd : Instr.noncharFields d1 d2 d3 = false) :
    fieldsCodePoint t d1 d2 d3 % 65536 < 0xFFFE := by
  have h := mt (noncharFields_iff d1 d2 d3).mpr (by simp [hd])
  unfold fieldsCodePoint
  omega

/-- A unit is text in its range, and no noncharacter, by the tag and the fields its bytes carry. -/
theorem utf8_of_fields {i : Instr} {t : BitVec 2} {d1 d2 d3 : Sextet}
    (hbytes : encode Cfg.decided i =
      [Cfg.decided.lead t, naturalByte Cfg.decided d1, naturalByte Cfg.decided d2, naturalByte Cfg.decided d3])
    (ht : t ≠ 0#2) (hd : Instr.noncharFields d1 d2 d3 = false)
    (hrange : (codePointRange i).1 ≤ fieldsCodePoint t d1 d2 d3 ∧ fieldsCodePoint t d1 d2 d3 ≤ (codePointRange i).2) :
    ∃ b0 b1 b2 b3 : Byte, encode Cfg.decided i = [b0, b1, b2, b3] ∧ utf8WellFormed b0 b1 b2 b3 = true ∧
      (codePointRange i).1 ≤ codePoint b0 b1 b2 b3 ∧ codePoint b0 b1 b2 b3 ≤ (codePointRange i).2 ∧
      codePoint b0 b1 b2 b3 % 65536 < 0xFFFE := by
  refine ⟨_, _, _, _, hbytes, utf8WellFormed_of_tag_ne_zero ht d1 d2 d3, ?_⟩
  rw [codePoint_eq_fieldsCodePoint]
  obtain ⟨hlo, hhi⟩ := hrange
  exact ⟨hlo, hhi, fieldsCodePoint_mod_lt t hd⟩

/-- Settles O45: a canonical unit carries a tag other than 00 and three fields that are no noncharacter pattern, `NCM`
and the skip markers read as fields too. -/
theorem decidedUnitsAreUtf8 : Obligations.DecidedUnitsAreUtf8 := by
  intro i hi
  rcases canonical_cases hi with ⟨d1, d2, d3, rfl, hd⟩ | ⟨d1, d2, d3, rfl, hd⟩ | ⟨special, plane, flag, rfl⟩ |
    ⟨d2, d3, rfl⟩ | ⟨d3, rfl⟩
  · refine utf8_of_fields (t := 0b10#2) (encode_mkReg rfl d1 d2 d3) (by decide) hd ?_
    simp only [codePointRange, Instr.mkReg, fieldsCodePoint, BitVec.reduceToNat]
    omega
  · refine utf8_of_fields (t := 0b01#2) (encode_mkTun _ d1 d2 d3) (by decide) hd ?_
    simp only [codePointRange, Instr.mkTun, fieldsCodePoint, BitVec.reduceToNat]
    omega
  · have hlow : ∀ (s : BitVec 1) (p : BitVec 2) (f : BitVec 1), (0#2 ++ s ++ p ++ f : Sextet).toNat ≤ 15 := by decide
    have hd3 := hlow special plane flag
    refine utf8_of_fields (t := 0b11#2) (d1 := 2#6) (d2 := 0#6) (encode_mkNcs _ special plane flag) (by decide) rfl ?_
    simp only [codePointRange, Instr.mkNcs, fieldsCodePoint, BitVec.reduceToNat]
    omega
  · refine utf8_of_fields (t := 0b11#2) (d1 := 0#6) (encode_mkTpd1 _ d2 d3) (by decide) rfl ?_
    simp only [codePointRange, Instr.mkTpd1, fieldsCodePoint, BitVec.reduceToNat]
    omega
  · refine utf8_of_fields (t := 0b11#2) (d1 := 1#6) (d2 := 0#6) (encode_mkTpd2 _ d3) (by decide) rfl ?_
    simp only [codePointRange, Instr.mkTpd2, fieldsCodePoint, BitVec.reduceToNat]
    omega

end Sys2Proof.Machine

/-! PROOFS. The ENCODE claims (40_encode.md): the bit stream that the slot steps regroup (R103 to R105), the formation of
a unit (R106 to R110), the collision test and the NCS rewrite (R111 to R113, R118), and the whole run of an ENCODE (R100
to R102, R116, R117). -/

namespace Sys2Proof.Machine

/-! ### Strings of bits -/

@[simp] theorem bitsOf_length (w v : Nat) : (bitsOf w v).length = w := by simp [bitsOf]

theorem bitsOf_congr {w v v' : Nat} (h : ∀ i < w, v.testBit i = v'.testBit i) : bitsOf w v = bitsOf w v' := by
  refine List.map_congr_left fun i hi => h _ ?_
  have := List.mem_range.mp hi
  omega

/-- The first `k` of `k + m` bits are those above the low `m`. -/
theorem bitsOf_add (k m v : Nat) : bitsOf (k + m) v = bitsOf k (v >>> m) ++ bitsOf m v := by
  simp only [bitsOf, List.range_add, List.map_append, List.map_map]
  congr 1
  · refine List.map_congr_left fun i hi => ?_
    have := List.mem_range.mp hi
    rw [Nat.testBit_shiftRight]
    congr 1
    omega
  · refine List.map_congr_left fun i _ => ?_
    simp only [Function.comp_apply]
    congr 1
    omega

theorem bitsOf_mod_two_pow (w v : Nat) : bitsOf w (v % 2 ^ w) = bitsOf w v :=
  bitsOf_congr fun i hi => by simp [Nat.testBit_mod_two_pow, hi]

/-- A value shifted in at the low end stands after the bits held before. -/
theorem bitsOf_shiftLeft_or (k m a : Nat) {b : Nat} (hb : b < 2 ^ m) :
    bitsOf (k + m) (a <<< m ||| b) = bitsOf k a ++ bitsOf m b := by
  rw [bitsOf_add]
  congr 1
  · rw [Nat.shiftRight_or_distrib, Nat.shiftLeft_shiftRight, Nat.shiftRight_eq_zero b m hb, Nat.or_zero]
  · refine bitsOf_congr fun i hi => ?_
    simp [Nat.testBit_shiftLeft, Nat.not_le.mpr hi]

/-- Six bits determine a field. -/
theorem fieldBits_injective : Function.Injective fieldBits := by
  intro d d' h
  refine BitVec.eq_of_getLsbD_eq fun i hi => ?_
  have hbit := congrArg (·[5 - i]?) h
  simpa [fieldBits, bitsOf, show 5 - i < 6 by omega, show 5 - (5 - i) = i by omega, BitVec.testBit_toNat] using hbit

theorem fieldBits_ofNat (v : Nat) : fieldBits (BitVec.ofNat 6 v) = bitsOf 6 v := by
  rw [fieldBits, BitVec.toNat_ofNat, bitsOf_mod_two_pow]

/-! ### The source as a bit stream -/

/-- The `w` bits of the stream of `src` from bit `k` on, with zeros past the end (00_scope.md R12, 20_memory.md R54). -/
def streamBits (src : List Byte) (k w : Nat) : List Bool :=
  (List.range w).map fun i => (bitStream src).getD (k + i) false

@[simp] theorem streamBits_length (src : List Byte) (k w : Nat) : (streamBits src k w).length = w := by
  simp [streamBits]

theorem streamBits_add (src : List Byte) (k w w' : Nat) :
    streamBits src k (w + w') = streamBits src k w ++ streamBits src (k + w) w' := by
  simp [streamBits, List.range_add, Function.comp_def, Nat.add_assoc]

theorem srcRead_length (src : List Byte) (i : Nat) : srcRead src src.length i = src.getD i 0#8 := by
  by_cases h : i < src.length
  · exact srcRead_of_lt h
  · rw [srcRead_of_le (Nat.not_lt.mp h), List.getD_eq_default _ _ (Nat.not_lt.mp h)]

/-- Bit `j` of the stream is in byte `j div 8`, most significant bit first; past the end it is 0. -/
theorem bitStream_getD (src : List Byte) (j : Nat) :
    (bitStream src).getD j false = (srcRead src src.length (j / 8)).toNat.testBit (7 - j % 8) := by
  rw [srcRead_length]
  induction src generalizing j with
  | nil => simp [bitStream]
  | cons b src ih =>
    rw [bitStream, List.flatMap_cons, ← bitStream]
    by_cases h : j < 8
    · rw [List.getD_append _ _ _ _ (by simpa using h), Nat.div_eq_of_lt h, Nat.mod_eq_of_lt h]
      simp [bitsOf, h]
    · rw [List.getD_append_right _ _ _ _ (by simpa using h), bitsOf_length, ih, show j / 8 = (j - 8) / 8 + 1 by omega,
        show (j - 8) % 8 = j % 8 by omega, List.getD_cons_succ]

/-- Byte `i` of the source, zero past the end, is stream bits `8i … 8i+7`. -/
theorem streamBits_byte (src : List Byte) (i : Nat) :
    streamBits src (8 * i) 8 = bitsOf 8 (srcRead src src.length i).toNat := by
  refine List.map_congr_left fun j hj => ?_
  have hj8 := List.mem_range.mp hj
  rw [bitStream_getD, show (8 * i + j) / 8 = i by omega, show 7 - (8 * i + j) % 8 = 8 - 1 - j by omega]

/-- Bit `i` of a natural field, the first in the most significant place, is stream bit `6s + i` (40_encode.md R105). -/
theorem naturalField_testBit (src : List Byte) (s : Nat) {i : Nat} (hi : i < 6) :
    (naturalField src s).toNat.testBit (5 - i) = (bitStream src).getD (6 * s + i) false := by
  rw [bitStream_getD]
  simp only [naturalField, BitVec.toNat_ofNat, Nat.testBit_mod_two_pow, show (64 : Nat) = 2 ^ 6 from rfl,
    show 5 - i < 6 by omega, decide_true, Bool.true_and, Nat.testBit_div_two_pow, Nat.mul_comm _ 256]
  rw [show (256 : Nat) = 2 ^ 8 from rfl, Nat.testBit_two_pow_mul_add _ (BitVec.isLt _)]
  by_cases h : 6 * s % 8 + i < 8
  · rw [if_neg (by omega), show (6 * s + i) / 8 = 6 * s / 8 by omega]
    congr 1
    omega
  · rw [if_pos (by omega), show (6 * s + i) / 8 = 6 * s / 8 + 1 by omega]
    congr 1
    omega

theorem fieldBits_naturalField (src : List Byte) (s : Nat) :
    fieldBits (naturalField src s) = streamBits src (6 * s) 6 :=
  List.map_congr_left fun _ hi => naturalField_testBit src s (List.mem_range.mp hi)

/-- Settles O32: bit by bit, each is in the first or the second byte of the pair that the closed form reads. -/
theorem naturalFieldsAreTheBitStream : Obligations.NaturalFieldsAreTheBitStream := fieldBits_naturalField

/-! ### Slot steps -/

theorem encPull_bits {e : Enc} (h : e.nbits < 6) :
    bitsOf (encPull e).nbits (encPull e).acc = bitsOf e.nbits e.acc ++ bitsOf 8 (srcRead e.src e.n e.ip).toNat := by
  rw [encPull_of_lt h]
  exact bitsOf_shiftLeft_or e.nbits 8 e.acc (BitVec.isLt _)

theorem encPull_nbits_ge (e : Enc) : 6 ≤ (encPull e).nbits := by
  by_cases h : e.nbits < 6
  · simp only [encPull_of_lt h]
    omega
  · rwa [encPull_of_le (Nat.not_lt.mp h), ← Nat.not_lt]

/-- The 6 oldest of the bits held are the field, and the others stay (40_encode.md R104). -/
theorem encSlot_bits (e : Enc) :
    fieldBits (encSlot e).1 ++ bitsOf (encSlot e).2.nbits (encSlot e).2.acc =
      bitsOf (encPull e).nbits (encPull e).acc := by
  obtain ⟨m, hm⟩ := Nat.exists_eq_add_of_le (encPull_nbits_ge e)
  simp only [encSlot, encOldest, encDrop, fieldBits_ofNat, hm, bitsOf_add 6 m, Nat.add_sub_cancel_left,
    Nat.one_shiftLeft, Nat.and_two_pow_sub_one_eq_mod, bitsOf_mod_two_pow, show (0x3F : Nat) = 2 ^ 6 - 1 from rfl]

theorem naturalByte_marker (c : Cfg) (v : Sextet) : (naturalByte c v).extractLsb' 6 2 = c.cont :=
  congrArg Payload.cm (payloadOfByte_naturalByte c v)

theorem naturalByte_field (c : Cfg) (v : Sextet) : (naturalByte c v).extractLsb' 0 6 = v :=
  congrArg Payload.d (payloadOfByte_naturalByte c v)

/-- Settles O31: the pull appends a byte, and the bits then held are split after the sixth. -/
theorem slotStepTakesTheOldestBits : Obligations.SlotStepTakesTheOldestBits := by
  intro c e hn _
  obtain ⟨hcursor, hcursor'⟩ := encSlot_cursor e
  refine ⟨fun h => ⟨?_, ?_, ?_, encPull_bits h⟩, encPull_of_le, encSlot_bits e, by omega, encSlot_acc_lt e,
    naturalByte_marker c _, naturalByte_field c _⟩ <;> simp only [encPull_of_lt h] <;> omega

/-- ENC is about to make slot `s` of the source: it holds the stream bits from `6s` to the last byte pulled
(40_encode.md R103, 20_memory.md R55). -/
structure AtSlot (src : List Byte) (s : Nat) (e : Enc) : Prop where
  source : e.src = src
  length : e.n = src.length
  cursor : e.nbits + 6 * s = 8 * e.ip
  held : bitsOf e.nbits e.acc = streamBits src (6 * s) e.nbits

/-- After the pull the bits held go on to the last byte pulled. -/
theorem AtSlot.pulled_bits {src : List Byte} {s : Nat} {e : Enc} (h : AtSlot src s e) :
    bitsOf (encPull e).nbits (encPull e).acc = streamBits src (6 * s) (encPull e).nbits := by
  by_cases hn : e.nbits < 6
  · rw [encPull_bits hn, h.held, h.source, h.length, ← streamBits_byte, ← h.cursor, Nat.add_comm e.nbits,
      ← streamBits_add, encPull_of_lt hn]
  · rw [encPull_of_le (Nat.not_lt.mp hn), h.held]

/-- A slot step makes the natural field of the closed form (40_encode.md R105) and goes on to the next slot. -/
theorem AtSlot.next_slot {src : List Byte} {s : Nat} {e : Enc} (h : AtSlot src s e) :
    (encSlot e).1 = naturalField src s ∧ AtSlot src (s + 1) (encSlot e).2 := by
  have hframe := encSlot_frame e
  obtain ⟨hpull, hkeep⟩ := encSlot_cursor e
  have hcursor := h.cursor
  have hnbits : (encPull e).nbits = 6 + (encSlot e).2.nbits := by
    have := encPull_nbits_ge e
    simp only [encSlot, encDrop]
    omega
  have hsplit := encSlot_bits e
  rw [h.pulled_bits, hnbits, streamBits_add, ← fieldBits_naturalField] at hsplit
  obtain ⟨hfield, hrest⟩ := List.append_inj hsplit (by simp [fieldBits])
  refine ⟨fieldBits_injective hfield, ⟨?_, ?_, by omega, hrest⟩⟩
  · rw [hframe, h.source]
  · rw [hframe, h.length]

/-- A unit step appends the unit of the next three natural fields and goes on three slots (40_encode.md R102). -/
theorem AtSlot.next_unit {src : List Byte} {s : Nat} {e : Enc} (h : AtSlot src s e) (c : Cfg) :
    (encUnitStep c e).dst = e.dst ++ emitUnit c (e.u + 1 == e.units) e.r
        (naturalField src s) (naturalField src (s + 1)) (naturalField src (s + 2)) ∧
      AtSlot src (s + 3) (encUnitStep c e) := by
  obtain ⟨hfield1, h1⟩ := h.next_slot
  obtain ⟨hfield2, h2⟩ := h1.next_slot
  obtain ⟨hfield3, h3⟩ := h2.next_slot
  refine ⟨?_, h3.source, h3.length, h3.cursor, h3.held⟩
  simp only [encUnitStep, encEmit_dst, encSlot_dst, hfield1, hfield2, hfield3]

/-! ### The formation of a unit -/

/-- Settles O34: the remainder selects the class of the final unit. -/
theorem finalUnitIsFormedByRemainder : Obligations.FinalUnitIsFormedByRemainder := by
  intro c r p1 p2 p3
  exact ⟨fun h => formFinal_of_tun c h p1 p2 p3, fun hlo hhi => formFinal_of_tpd1 c hlo hhi p1 p2 p3,
    fun hlo hhi => formFinal_of_tpd2 c hlo hhi p1 p2 p3, rfl⟩

theorem mark_eq_naturalByte (c : Cfg) : c.mark = naturalByte c 0#6 := (BitVec.or_zero).symm

/-- All three payload bytes of a unit are fields under the marker before the collision test, the skip markers read as
fields too. -/
theorem formUnit_marked (c : Cfg) (final : Bool) (r : Nat) (v1 v2 v3 : Sextet) :
    ∃ tag d1 d2 d3, formUnit c final r (naturalByte c v1) (naturalByte c v2) (naturalByte c v3) =
      ⟨tag, naturalByte c d1, naturalByte c d2, naturalByte c d3⟩ := by
  unfold formUnit formFinal
  split_ifs
  · exact ⟨Cfg.tagTun, v1, v2, v3, rfl⟩
  · exact ⟨Cfg.tagRsv, 0#6, v1, v2, rfl⟩
  · exact ⟨Cfg.tagRsv, 1#6, 0#6, v1, by rw [formTpd2, mark_eq_naturalByte]; rfl⟩
  · exact ⟨c.tagReg, v1, v2, v3, rfl⟩

/-! ### The collision test and the rewrite -/

/-- Settles O35: the test looks at the last 4 bits of the first field, all of the second, the first 5 of the third. -/
theorem collisionIsFifteenOnes : Obligations.CollisionIsFifteenOnes := by
  intro c d1 d2 d3
  have hwindow : ((fieldBits d1 ++ fieldBits d2 ++ fieldBits d3).drop 2).take 15 =
      (fieldBits d1).drop 2 ++ fieldBits d2 ++ (fieldBits d3).take 5 := rfl
  have h1 : ∀ d : Sextet, (d.extractLsb' 0 4 == 0b1111#4) = ((fieldBits d).drop 2).all id := by decide
  have h2 : ∀ d : Sextet, (d == 0b111111#6) = (fieldBits d).all id := by decide
  have h3 : ∀ d : Sextet, (d.extractLsb' 1 5 == 0b11111#5) = ((fieldBits d).take 5).all id := by decide
  rw [collides_naturalByte, Instr.noncharFields, hwindow, List.all_append, List.all_append, h1, h2, h3]

/-- The fields of a noncharacter pattern are those that its plane and flag give back (30_encoding.md R82). -/
theorem fields_of_noncharFields {d1 d2 d3 : Sextet} (h : Instr.noncharFields d1 d2 d3 = true) :
    d1.extractLsb' 4 2 ++ 0b1111#4 = d1 ∧ d2 = 0b111111#6 ∧ 0b11111#5 ++ d3.extractLsb' 0 1 = d3 := by
  have h1 : ∀ d : Sextet, d.extractLsb' 0 4 = 0b1111#4 → d.extractLsb' 4 2 ++ 0b1111#4 = d := by decide
  have h3 : ∀ d : Sextet, d.extractLsb' 1 5 = 0b11111#5 → 0b11111#5 ++ d.extractLsb' 0 1 = d := by decide
  simp only [Instr.noncharFields, Bool.and_eq_true, beq_iff_eq] at h
  obtain ⟨⟨hd1, hd2⟩, hd3⟩ := h
  exact ⟨h1 d1 hd1, hd2, h3 d3 hd3⟩

/-- The rewrite of a colliding unit is the NCS unit of its tag bit, plane and flag (40_encode.md R112). -/
theorem settleUnit_bytes_of_nonchar (c : Cfg) (tag : BitVec 2) {d1 d2 d3 : Sextet}
    (h : Instr.noncharFields d1 d2 d3 = true) :
    draftBytes c (settleUnit c ⟨tag, naturalByte c d1, naturalByte c d2, naturalByte c d3⟩) =
      encode c (Instr.mkNcs c (tag.extractLsb' 0 1) (d1.extractLsb' 4 2) (d3.extractLsb' 0 1)) := by
  rw [settleUnit, if_pos ((collides_naturalByte c d1 d2 d3).trans h), substituteUnit_bytes]

/-- Bit 0 of the tag tells the two variants that can collide apart, if `TAG_REG` is even (30_encoding.md R82). -/
theorem ncsOrigTag_of_tag {c : Cfg} (hreg : c.tagReg.extractLsb' 0 1 = 0#1) {tag : BitVec 2}
    (h : tag = c.tagReg ∨ tag = 0b01#2) : ncsOrigTag c (tag.extractLsb' 0 1) = tag := by
  rcases h with rfl | rfl
  · simp [ncsOrigTag, hreg]
  · rfl

theorem decode_encode {c : Cfg} {i : Instr} (hwf : i.wf c = true) : decode c (encode c i) = .ok (i, []) := by
  simpa using decodeInvertsEncode c i [] hwf

/-- Settles O37: the rewritten unit is an NCS that holds bit 0 of the tag and the three bits the pattern leaves free. -/
theorem substitutionLosesNothing : Obligations.SubstitutionLosesNothing := by
  refine ⟨fun c tag d1 d2 d3 ⟨hreg, _, _⟩ htag hcollides => ?_, fun _ _ => settleUnit_of_not_collides⟩
  rw [collides_naturalByte] at hcollides
  obtain ⟨hd1, hd2, hd3⟩ := fields_of_noncharFields hcollides
  obtain ⟨hoperands, -⟩ := substituteOperandsAreReconstructed c c.leadMid c.mark (c.cont ++ 0#2)
    (tag.extractLsb' 0 1) (d1.extractLsb' 4 2) (d3.extractLsb' 0 1)
  rw [hd1, ← hd2, hd3] at hoperands
  refine ⟨_, ?_, rfl, mkNcs_canonical .., hoperands, ncsOrigTag_of_tag hreg htag⟩
  rw [settleUnit_bytes_of_nonchar c tag hcollides]
  exact decode_encode rfl

/-- Settles O36: the remainder is even, so at most 16, and bit 16 of the final unit's payload is padding. -/
theorem paddedUnitsNeverCollide : Obligations.PaddedUnitsNeverCollide := by
  intro c
  refine ⟨fun p1 p2 => collides_skip1 c p1 p2, fun p1 => collides_skip2 c c.mark p1, fun src hr u hu => ?_⟩
  have hpadding : (naturalField src (3 * u + 2)).toNat.testBit 1 = false := by
    rw [naturalField_testBit src (3 * u + 2) (i := 4) (by decide), bitStream_getD, srcRead_of_le]
    · exact Nat.zero_testBit _
    · rw [unitCount_pos c (by omega)] at hu
      have hend : 8 * src.length ≤ 18 * u + 16 := by omega
      omega
  have hones : ∀ d : Sextet, d.toNat / 2 = 31 → d.toNat.testBit 1 = true := by decide
  rw [collides_naturalByte, Bool.eq_false_iff]
  intro hcollides
  obtain ⟨-, -, hd3⟩ := (noncharFields_iff _ _ _).mp hcollides
  rw [hones _ hd3] at hpadding
  cases hpadding

/-! ### The bytes of an emitted unit -/

/-- What ENC emits is three fields under the marker that are no noncharacter pattern, or an NCS unit. -/
theorem emitUnit_cases (c : Cfg) (final : Bool) (r : Nat) (v1 v2 v3 : Sextet) :
    (∃ tag d1 d2 d3, emitUnit c final r v1 v2 v3 = [c.lead tag, naturalByte c d1, naturalByte c d2, naturalByte c d3] ∧
        Instr.noncharFields d1 d2 d3 = false) ∨
      ∃ special plane flag, emitUnit c final r v1 v2 v3 = encode c (Instr.mkNcs c special plane flag) := by
  obtain ⟨tag, d1, d2, d3, hform⟩ := formUnit_marked c final r v1 v2 v3
  rw [emitUnit, hform]
  cases hd : Instr.noncharFields d1 d2 d3 with
  | true => exact .inr ⟨_, _, _, settleUnit_bytes_of_nonchar c tag hd⟩
  | false =>
    rw [settleUnit_of_not_collides ((collides_naturalByte c d1 d2 d3).trans hd)]
    exact .inl ⟨tag, d1, d2, d3, rfl, hd⟩

/-- Payload byte 2 of an NCS unit is the bare marker, so the unit is no noncharacter pattern itself. -/
theorem collides_mark (c : Cfg) (b1 b3 : Byte) : collides c b1 c.mark b3 = false := by
  have h : c.markAll = naturalByte c 0x3F#6 := rfl
  simp [collides, h, mark_eq_naturalByte]

theorem lead_emitted_fields (c : Cfg) (t : BitVec 2) :
    (c.lead t).extractLsb' 4 4 = c.leadHi ∧ (c.lead t).extractLsb' 2 2 = c.leadMid := by
  have hmid : ∀ (hi : BitVec 4) (mid tag : BitVec 2), (hi ++ mid ++ tag : Byte).extractLsb' 2 2 = mid := by decide
  rw [lead_eq]
  exact ⟨Laws.UnitShape.lead_nibble c.leadHi c.leadMid t, hmid c.leadHi c.leadMid t⟩

/-- Settles O43: every payload byte of an emitted unit is a field under the marker, but for the `NCM` of an NCS. -/
theorem emittedUnitsAvoidNoncharacters : Obligations.EmittedUnitsAvoidNoncharacters := by
  intro c src u
  unfold encodedUnit
  rcases emitUnit_cases c _ _ _ _ _ with ⟨tag, d1, d2, d3, hbytes, hd⟩ | ⟨special, plane, flag, hbytes⟩
  · obtain ⟨hhi, hmid⟩ := lead_emitted_fields c tag
    exact ⟨_, _, _, _, hbytes, (collides_naturalByte c d1 d2 d3).trans hd, hhi, hmid, fun _ => naturalByte_marker c d1,
      naturalByte_marker c d2, naturalByte_marker c d3⟩
  · obtain ⟨hhi, hmid⟩ := lead_emitted_fields c Cfg.tagRsv
    exact ⟨_, _, _, _, hbytes.trans (encode_mkNcs c special plane flag), collides_mark c _ _, hhi, hmid, id,
      mark_marker c, naturalByte_marker c _⟩

/-! ### The empty input -/

/-- With `EMPTY_UNITS = 1` the empty input is one final unit, all padding, of remainder 0 (40_encode.md R101). -/
theorem encodeAll_nil_of_empty_unit {c : Cfg} (h : c.emptyUnits = 1) :
    encodeAll c [] = encode c (Instr.mkTun c 0 0 0) := by
  have hunits : unitCount c 0 = 1 := by simp [h]
  have hzero : ∀ s, naturalField [] s = 0#6 := by simp [naturalField]
  have hunit : encodedUnit c [] 0 = encode c (Instr.mkTun c 0 0 0) := by
    rw [encodedUnit, List.length_nil, hunits, hzero, hzero, hzero, emitUnit, Nat.zero_add, beq_self_eq_true, formUnit,
      if_pos rfl, formFinal_of_tun c (.inl rfl), formTun,
      settleUnit_of_not_collides (collides_naturalByte c 0#6 0#6 0#6), encode_mkTun]
    rfl
  simp [encodeAll, hunits, hunit]

theorem decodeAll_mkTun_zero (c : Cfg) : decodeAll c (encode c (Instr.mkTun c 0 0 0)) = .ok [0#8, 0#8] := by
  have hhi : ∀ (hi : BitVec 4) (mid : BitVec 2), (hi ++ mid ++ Cfg.tagTun : Byte) >>> 4 = hi.setWidth 8 := by decide
  have htag : ∀ (hi : BitVec 4) (mid : BitVec 2), (hi ++ mid ++ Cfg.tagTun : Byte) &&& 3#8 = 1#8 := by decide
  have hmarker : ∀ m : BitVec 2, (m ++ 0#6 : Byte) >>> 6 = m.setWidth 8 := by decide
  have hfield : ∀ m : BitVec 2, (m ++ 0#6 : Byte).toNat % 64 = 0 := by decide
  simp [encode_mkTun, lead_eq, naturalByte_eq, byteOfPayload, decodeAll, passUnits, passList, passBytes, passByte, hhi,
    htag, hmarker, hfield]

/-- Settles O44: no unit, or one unit of 18 zero bits, from which DEC emits two bytes and drops two bits. -/
theorem emptyInputUnderBothReadings : Obligations.EmptyInputUnderBothReadings := by
  intro c
  refine ⟨fun h => ⟨by simp [encodeAll, h], rfl⟩, fun h => ?_⟩
  rw [encodeAll_nil_of_empty_unit h]
  exact ⟨rfl, decodeAll_mkTun_zero c⟩

/-! ### Every step answers -/

theorem exec_answers (i : Instr) (s : State) : ∃ t, exec i s = .next t := by
  rw [exec_eq_decUnit]
  rcases decUnit_cases (consumedOperands s.cfg i) s with ⟨-, h⟩ | ⟨_, -, h⟩ <;> exact ⟨_, h⟩

/-- A pass of DEC's loop answers: a unit executed, a bad lead byte, or the end (41_decode.md R145). -/
theorem decRun_answers {s : State} (hm : s.dec.m ≤ s.dec.src.length) : ∃ t, decRun s = .next t := by
  by_cases hpos : s.dec.pos + 4 ≤ s.dec.m
  · cases hdecode : decode s.cfg (s.dec.src.drop s.dec.pos) with
    | ok p => exact decRun_of_unit hm hpos hdecode ▸ exec_answers p.1 s
    | error _ => exact ⟨_, decRun_of_badLead hm hpos hdecode⟩
  · exact ⟨_, decRun_of_end hm (Nat.not_le.mp hpos)⟩

theorem decMove_answers {s : State} (hinv : DecInv s.dec) (hst : s.dec.start = none ∨ s.dec.phase ≠ .run) :
    ∃ t, decMove s = .next t := by
  by_cases hrun : s.dec.phase = .run
  · obtain ⟨hm, -⟩ := hinv hrun
    rw [decMove_of_running (hst.resolve_right (not_not.mpr hrun)) hrun]
    exact decRun_answers hm.le
  · cases hstart : s.dec.start with
    | some src => exact ⟨_, decMove_of_start hstart hrun⟩
    | none => exact ⟨_, decMove_of_waiting hstart hrun⟩

theorem encMove_of_running {s : State} (hst : s.enc.start = none) (hph : s.enc.phase = .run) :
    encMove s = encRun s := by
  simp [encMove, hst, hph]

theorem encRun_answers {s : State} (hn : s.enc.n ≤ s.enc.src.length) : ∃ t, encRun s = .next t := by
  rw [encRun, if_neg (Nat.not_lt.mpr hn)]
  split_ifs <;> exact ⟨_, rfl⟩

theorem encMove_answers {s : State} (hinv : EncInv s.cfg s.enc) (hst : s.enc.start = none ∨ s.enc.phase ≠ .run) :
    ∃ t, encMove s = .next t := by
  by_cases hrun : s.enc.phase = .run
  · obtain ⟨hn, -⟩ := hinv.1 hrun
    rw [encMove_of_running (hst.resolve_right (not_not.mpr hrun)) hrun]
    exact encRun_answers hn.le
  · cases hstart : s.enc.start with
    | some src => exact ⟨_, encMove_of_start hstart hrun⟩
    | none => exact ⟨_, encMove_of_waiting hstart hrun⟩

/-- Settles O26: DEC's move answers and leaves ENC as it is, and then ENC's move answers. -/
theorem stepAlwaysAnswers : Obligations.StepAlwaysAnswers := by
  intro s ⟨hencInv, hdecInv⟩ hdec henc
  obtain ⟨u, hu⟩ := decMove_answers hdecInv hdec
  obtain ⟨hue, huc⟩ := decMove_keeps_enc hu
  rw [step, hu]
  exact encMove_answers (by rwa [hue, huc]) (by rwa [hue])

/-! ### The run of an ENCODE -/

/-- DEC's move makes no START of its own. -/
theorem decMove_start_eq_none {s t : State} (hst : s.dec.start = none) (h : decMove s = .next t) :
    t.dec.start = none := by
  rcases decMove_cases h with ⟨src, hsome, -⟩ | ⟨-, -, -, -, ⟨i, _, -, hx⟩ | ⟨_, -, rfl⟩⟩ | ⟨-, -, -, -, rfl⟩ |
    ⟨-, -, rfl⟩
  · cases hst.symm.trans hsome
  · rcases exec_cases hx with ⟨-, rfl⟩ | ⟨_, -, rfl⟩
    · exact (decUnitDone_start s.cfg i s.dec).trans hst
    · exact hst
  · exact hst
  · unfold decFinish
    split <;> exact hst
  · exact hst

/-- ENC runs an ENCODE of `src` and has made its first `k` units, while no START waits at either engine (40_encode.md
R102). -/
structure EncodingAt (c : Cfg) (src : List Byte) (k : Nat) (t : State) : Prop where
  cfg : t.cfg = c
  inv : Inv t
  decStart : t.dec.start = none
  start : t.enc.start = none
  running : t.enc.phase = .run
  unit : t.enc.u = k
  slot : AtSlot src (3 * k) t.enc
  output : t.enc.dst = (List.range k).flatMap (encodedUnit c src)

section Encoding

variable {c : Cfg} {src : List Byte} {k : Nat} {s t : State}

/-- A step of a state that meets the invariant: it answers, keeps the invariant, and makes ENC's move beside DEC's. -/
theorem step_of_inv (hinv : Inv s) (hdec : s.dec.start = none) (henc : s.enc.start = none ∨ s.enc.phase ≠ .run) :
    ∃ u t, step s = .next t ∧ Inv t ∧ t.cfg = s.cfg ∧ t.dec.start = none ∧ encMove u = .next t ∧
      u.enc = s.enc ∧ u.cfg = s.cfg := by
  obtain ⟨t, ht⟩ := stepAlwaysAnswers s hinv (.inl hdec) henc
  obtain ⟨u, hdecMove, hencMove, htd, hue, huc, htc⟩ := step_parts ht
  have hdecStart : t.dec.start = none := htd ▸ decMove_start_eq_none hdec hdecMove
  exact ⟨u, t, ht, stepKeepsTheInvariant s t hinv ht, htc, hdecStart, hencMove, hue, huc⟩

/-- The step that takes the START (10_state.md R31). -/
theorem encodingAt_of_start (h : ReadyEnc s) (src : List Byte) :
    ∃ t, step (presentStart .enc src s) = .next t ∧ EncodingAt s.cfg src 0 t := by
  obtain ⟨⟨hencInv, hdecInv⟩, hdec, hidle⟩ := h
  obtain ⟨u, t, ht, hinv, hcfg, hdecStart, hmove, hue, huc⟩ :=
    step_of_inv (s := presentStart .enc src s) ⟨hencInv, hdecInv⟩ hdec (.inr hidle)
  have hstart : encMove u = .next (startEnc src u) :=
    encMove_of_start (congrArg Enc.start hue) (by rw [hue]; exact hidle)
  cases hmove.symm.trans hstart
  exact ⟨_, ht, ⟨hcfg, hinv, hdecStart, rfl, rfl, rfl, ⟨rfl, rfl, rfl, rfl⟩, rfl⟩⟩

/-- A unit step makes the next unit of the closed form. -/
theorem EncodingAt.next_unit (h : EncodingAt c src k t) (hk : k < unitCount c src.length) :
    ∃ t', step t = .next t' ∧ EncodingAt c src (k + 1) t' := by
  obtain ⟨u, t', ht', hinv, hcfg, hdecStart, hmove, hue, huc⟩ := step_of_inv h.inv h.decStart (.inl h.start)
  obtain ⟨-, htotal, hunits, hr, -⟩ := h.inv.1.1 h.running
  rw [h.slot.length] at htotal hunits
  rw [h.cfg] at hunits hcfg huc
  rw [htotal] at hr
  rcases encMove_of_run_cases (by rw [hue, h.running]) hmove with ⟨-, hunit⟩ | ⟨hend, -⟩
  · rw [hue, huc] at hunit
    obtain ⟨hstart, -, -, -, -, -, hu, hph⟩ := encUnitStep_frame c t.enc
    obtain ⟨hdst, hslot⟩ := h.slot.next_unit c
    refine ⟨t', ht', hcfg, hinv, hdecStart, ?_, ?_, ?_, ?_, ?_⟩ <;> rw [hunit]
    · rw [hstart, h.start]
    · rw [hph, h.running]
    · rw [hu, h.unit]
    · exact hslot
    · rw [hdst, h.output, h.unit, hunits, hr, List.range_succ, List.flatMap_append, List.flatMap_singleton,
        encodedUnit]
  · rw [hue, h.unit, hunits] at hend
    omega

/-- With all units made, the step ends the operation with the output as it stands (40_encode.md R115). -/
theorem EncodingAt.finish (h : EncodingAt c src (unitCount c src.length) t) :
    ∃ t', step t = .next t' ∧ t'.enc.phase = .done ∧ t'.enc.dst = encodeAll c src := by
  obtain ⟨u, t', ht', -, -, -, hmove, hue, -⟩ := step_of_inv h.inv h.decStart (.inl h.start)
  obtain ⟨-, -, hunits, -⟩ := h.inv.1.1 h.running
  rw [h.slot.length, h.cfg] at hunits
  rcases encMove_of_run_cases (by rw [hue, h.running]) hmove with ⟨hmore, -⟩ | ⟨-, -, hdone, hdst⟩
  · rw [hue, h.unit, hunits] at hmore
    omega
  · exact ⟨t', ht', hdone, by rw [hdst, hue, h.output, encodeAll]⟩

/-- A run of one more step makes that step last. -/
theorem core_run_succ_last {k : Nat} {s t u : State} (h : core.run k s = .next t) (hstep : step t = .next u) :
    core.run (k + 1) s = .next u := by
  induction k generalizing s with
  | zero =>
    cases h
    rw [core_run_succ, hstep]
    rfl
  | succ k ih =>
    obtain ⟨v, hv, hrest⟩ := core_run_succ_cases h
    rw [core_run_succ, hv]
    exact ih hrest

/-- The START and `k` unit steps, by induction on `k`. -/
theorem encodingAt_of_run (h : ReadyEnc s) (src : List Byte) (hk : k ≤ unitCount s.cfg src.length) :
    ∃ t, core.run (k + 1) (presentStart .enc src s) = .next t ∧ EncodingAt s.cfg src k t := by
  induction k with
  | zero =>
    obtain ⟨t, ht, hat⟩ := encodingAt_of_start h src
    exact ⟨t, core_run_succ_last (k := 0) rfl ht, hat⟩
  | succ k ih =>
    obtain ⟨t, hrun, hat⟩ := ih (Nat.le_of_succ_le hk)
    obtain ⟨t', ht', hat'⟩ := hat.next_unit hk
    exact ⟨t', core_run_succ_last hrun ht', hat'⟩

end Encoding

/-- Settles O38: the START puts ENC before unit 0, and each unit step makes the next unit. -/
theorem encodeMakesItsUnitsInOrder : Obligations.EncodeMakesItsUnitsInOrder := by
  intro s src k h hk
  obtain ⟨t, hrun, hat⟩ := encodingAt_of_run h src hk
  obtain ⟨-, -, -, -, -, hip, -⟩ := hat.inv.1.1 hat.running
  exact ⟨t, hrun, hat.running, hat.unit, hat.unit ▸ hip, hat.output⟩

/-- Settles O39: after all its unit steps the run ends with the output as it stands. -/
theorem encodeMatchesTheClosedForm : Obligations.EncodeMatchesTheClosedForm := by
  intro s src h
  obtain ⟨t, hrun, hat⟩ := encodingAt_of_run h src le_rfl
  obtain ⟨t', ht', hdone, hdst⟩ := hat.finish
  exact ⟨t', core_run_succ_last hrun ht', hdone, by simp only [encDst, hdone, hdst]⟩

/-! ### The length of a result -/

@[simp] theorem encodedUnit_length (c : Cfg) (src : List Byte) (u : Nat) : (encodedUnit c src u).length = 4 :=
  emitUnit_length ..

theorem encodeAll_length (c : Cfg) (src : List Byte) : (encodeAll c src).length = 4 * unitCount c src.length := by
  simp [encodeAll, List.length_flatMap, Nat.mul_comm]

/-- Settles O40: the result is the closed form, with four bytes a unit. -/
theorem encodeOutputLength : Obligations.EncodeOutputLength := by
  intro s src h
  obtain ⟨t, hrun, -, hdst⟩ := encodeMatchesTheClosedForm s src h
  refine ⟨t, hrun, ?_⟩
  rw [encDstLen, hdst, Option.map_some, encodeAll_length, unitCount, mul_ite]

end Sys2Proof.Machine

/-! PROOFS. The DECODE claims (41_decode.md): feed and emit (R142), the unit step of each variant (R133 to R140, R147),
the steps of a running DEC (R131, R132, R143, R144), the one-piece pass (R151) and the whole run of a DECODE, its
payload stream and length (R143, R148, R150) and the round trip (R146). -/

namespace Sys2Proof.Machine

/-! ### The bits fed -/

/-- A feed appends its 6 bits to those emitted and held: with 8 or more held, the first 8 go out and the rest stays. -/
theorem decBits_decFeed (v : Sextet) (d : Dec) : decBits (decFeed v d) = decBits d ++ fieldBits v := by
  have happend : bitsOf (d.nbits + 6) (d.acc <<< 6 ||| v.toNat) = bitsOf d.nbits d.acc ++ fieldBits v :=
    bitsOf_shiftLeft_or d.nbits 6 d.acc v.isLt
  rw [decBits, decBits, List.append_assoc, ← happend]
  by_cases h : d.nbits < 2
  · rw [decFeed_hold v d h]
  · rw [decFeed_emit v d (Nat.not_lt.mp h), show d.nbits + 6 = 8 + (d.nbits - 2) by omega, bitsOf_add]
    simp only [dstAppend, bitStream, List.flatMap_append, List.flatMap_singleton, List.append_assoc,
      BitVec.toNat_ofNat, bitsOf_mod_two_pow, Nat.one_shiftLeft, Nat.and_two_pow_sub_one_eq_mod,
      show (0xFF : Nat) = 2 ^ 8 - 1 from rfl]

theorem decBits_decFeedAll (L : List (Nat × Payload)) (d : Dec) :
    decBits (decFeedAll L d) = decBits d ++ L.flatMap fun e => fieldBits e.2.d := by
  induction L generalizing d with
  | nil => simp
  | cons e L ih => simpa [decBits_decFeed] using ih (decFeed e.2.d d)

/-- Settles O16: `decBits_decFeed` gives the stream, and `decFeed_emit` and `decFeed_hold` whether a byte goes out. -/
theorem feedAppendsSixBits : Obligations.FeedAppendsSixBits := by
  intro d v hn ha
  refine ⟨decBits_decFeed v d, decFeed_acc_lt ha, fun h => ?_, fun h => ?_⟩
  · rw [decFeed_emit v d (by omega)]
    exact ⟨by simp only; omega, by simp only; omega, dstAppend_length ..⟩
  · rw [decFeed_hold v d (by omega)]
    exact ⟨rfl, rfl⟩

/-- The fields reconstructed for a substitute hold its payload string (30_encoding.md R82, 41_decode.md R138). -/
theorem substituteFields_bits : ∀ (plane : BitVec 2) (flag : BitVec 1),
    fieldBits (plane ++ 0b1111#4) ++ fieldBits 0b111111#6 ++ fieldBits (0b11111#5 ++ flag) =
      bitsOf 2 plane.toNat ++ List.replicate 15 true ++ bitsOf 1 flag.toNat := by decide

theorem payloadBits_substitute (special : BitVec 1) (plane : BitVec 2) (flag : BitVec 1) :
    payloadBits (.noncharacterSubstitute special plane flag) =
      bitsOf 2 plane.toNat ++ List.replicate 15 true ++ bitsOf 1 flag.toNat := by
  simp [payloadBits, List.replicate]

/-- Settles O15: a variant's fields are the consumed positions, for a substitute those reconstructed (R82). -/
theorem classifyGivesThePayload : Obligations.ClassifyGivesThePayload := by
  refine fun c i => ⟨?_, consumedOperands_length c i⟩
  cases i with
  | reg => simp [consumedOperands, allOperands, classify, payloadBits]
  | tun => simp [consumedOperands, allOperands, classify, payloadBits]
  | ncs mid ign2 ign3 special plane flag =>
    obtain ⟨hoperands, -⟩ := substituteOperandsAreReconstructed c mid ign2 ign3 special plane flag
    rw [hoperands, classify, payloadBits_substitute, ← substituteFields_bits]
    simp
  | tpd1 => simp [consumedOperands, skip1Operands, classify, payloadBits]
  | tpd2 => simp [consumedOperands, skip2Operands, classify, payloadBits]

/-- The bits DEC has been fed after a unit it accepts. -/
theorem decBits_decUnitDone (c : Cfg) (i : Instr) (d : Dec) :
    decBits (decUnitDone c i d) = decBits d ++ payloadBits (classify i) := by
  obtain ⟨hpayload, -⟩ := classifyGivesThePayload c i
  rw [← hpayload]
  exact decBits_decFeedAll (consumedOperands c i) d

/-! ### The unit step of each variant -/

/-- A unit DEC accepts feeds its payload and moves `pos` on (41_decode.md R131). -/
theorem exec_feeds_payload {i : Instr} {s : State} (h : i.accepted s.cfg = true) (hn : s.dec.nbits ≤ 7)
    (ha : s.dec.acc < 2 ^ s.dec.nbits) : ∃ t, exec i s = .next t ∧ Fed s t (payloadBits (classify i)) := by
  obtain ⟨hheld, hbound⟩ := decFeedAll_bounds (consumedOperands s.cfg i) hn ha
  obtain ⟨-, -, hpos, hph, -⟩ := decUnitDone_frame s.cfg i s.dec
  exact ⟨_, exec_of_accepted h, decBits_decUnitDone s.cfg i s.dec, hheld, hbound, hpos, hph⟩

/-- The state after taking the exception is as 60_exceptions.md R166 has it. -/
theorem malformed_raiseMalformed (off : Nat) (s : State) : Malformed s (raiseMalformed off s) off :=
  ⟨rfl, rfl, rfl, rfl, rfl, rfl, rfl, rfl⟩

/-- A unit whose first unmarked consumed position is `j` takes the exception there (41_decode.md R141). -/
theorem exec_of_first_unmarked {i : Instr} {s : State} {e : Nat × Payload}
    (h : (consumedOperands s.cfg i).find? (fun e => e.2.cm ≠ s.cfg.cont) = some e) :
    exec i s = .next (raiseMalformed (s.dec.pos + e.1) s) := by
  have hfail := (decConsumeAll_error_iff s.cfg s.dec.pos (consumedOperands s.cfg i) s.dec _).mpr ⟨e, h, rfl⟩
  rw [exec_eq_decUnit, decUnit, hfail]

theorem exec_is_malformed {i : Instr} {s : State} {e : Nat × Payload}
    (h : (consumedOperands s.cfg i).find? (fun e => e.2.cm ≠ s.cfg.cont) = some e) :
    ∃ t, exec i s = .next t ∧ Malformed s t (s.dec.pos + e.1) :=
  ⟨_, exec_of_first_unmarked h, malformed_raiseMalformed _ s⟩

/-- Settles O7: REG and TUN consume positions 1, 2 and 3. -/
theorem regAndTunFeedEighteenBits : Obligations.RegAndTunFeedEighteenBits := by
  intro s mid tag1 p1 p2 p3 i hi
  have hoperands : consumedOperands s.cfg i = [(1, p1), (2, p2), (3, p3)] := by rcases hi with rfl | rfl <;> rfl
  have hpayload : payloadBits (classify i) = fieldBits p1.d ++ fieldBits p2.d ++ fieldBits p3.d := by
    rcases hi with rfl | rfl <;> rfl
  refine ⟨fun h1 h2 h3 hn ha => ?_, fun h1 => ?_, fun h1 h2 => ?_, fun h1 h2 h3 => ?_⟩
  · rw [← hpayload]
    exact exec_feeds_payload ((accepted_iff_consumed_marked s.cfg i).mpr (by simp [hoperands, h1, h2, h3])) hn ha
  · exact exec_is_malformed (e := (1, p1)) (by simp [hoperands, h1])
  · exact exec_is_malformed (e := (2, p2)) (by simp [hoperands, h1, h2])
  · exact exec_is_malformed (e := (3, p3)) (by simp [hoperands, h1, h2, h3])

/-- Settles O8: the reconstructed bytes carry the marker, so the unit is always accepted. -/
theorem ncsFeedsTheReconstructedBits : Obligations.NcsFeedsTheReconstructedBits := by
  intro s mid ign2 ign3 special plane flag hn ha
  obtain ⟨t, ht, hfed⟩ := exec_feeds_payload (i := .ncs mid ign2 ign3 special plane flag) rfl hn ha
  exact ⟨t, ht, payloadBits_substitute special plane flag ▸ hfed, rfl⟩

/-- Settles O9: TPD1 consumes positions 2 and 3. -/
theorem tpd1FeedsTwelveBits : Obligations.Tpd1FeedsTwelveBits := by
  intro s mid ign1 p2 p3
  refine ⟨fun h2 h3 hn ha => ?_, fun h2 => ?_, fun h2 h3 => ?_⟩
  · exact exec_feeds_payload (i := .tpd1 mid ign1 p2 p3) (by simp [Instr.accepted, h2, h3]) hn ha
  · exact exec_is_malformed (e := (2, p2)) (by simp [consumedOperands, skip1Operands, h2])
  · exact exec_is_malformed (e := (3, p3)) (by simp [consumedOperands, skip1Operands, h2, h3])

/-- Settles O10: TPD2 consumes position 3. -/
theorem tpd2FeedsSixBits : Obligations.Tpd2FeedsSixBits := by
  intro s mid ign1 ign2 p3
  refine ⟨fun h3 hn ha => ?_, fun h3 => ?_⟩
  · exact exec_feeds_payload (i := .tpd2 mid ign1 ign2 p3) (by simp [Instr.accepted, h3]) hn ha
  · exact exec_is_malformed (e := (3, p3)) (by simp [consumedOperands, skip2Operands, h3])

/-! ### The dispatch -/

theorem extractLsb'_one_eq_zero_iff (b : Byte) (k : Nat) : b.extractLsb' k 1 = 0#1 ↔ b.getLsbD k = false := by
  rw [BitVec.eq_of_getLsbD_eq_iff]
  simp

/-- Settles O3: the dispatch tests the bits of R133 in its order. -/
theorem dispatchSelectsOneVariant : Obligations.DispatchSelectsOneVariant := by
  intro c b0 b1 b2 b3 rest hlead
  refine ⟨_, decode_ok_iff.mpr ⟨b0, b1, b2, b3, rfl, hlead, rfl⟩, ?_⟩
  unfold dispatchUnit
  simp only [extractLsb'_one_eq_zero_iff]
  split_ifs <;> rfl

/-! ### The steps of a running DEC -/

theorem decMove_of_unit {s : State} {i : Instr} {rest : List Byte} (hst : s.dec.start = none)
    (hph : s.dec.phase = .run) (hm : s.dec.m ≤ s.dec.src.length) (hpos : s.dec.pos + 4 ≤ s.dec.m)
    (hdecode : decode s.cfg (s.dec.src.drop s.dec.pos) = .ok (i, rest)) : decMove s = exec i s := by
  rw [decMove_of_running hst hph, decRun_of_unit hm hpos hdecode]

/-- A unit's meaning leaves ENC as it is, so an ENC that holds no operation stays so. -/
theorem andThen_exec_encMove {s : State} (i : Instr) (hst : s.enc.start = none) (hph : s.enc.phase ≠ .run) :
    andThen (exec i s) encMove = exec i s := by
  obtain ⟨t, ht⟩ := exec_answers i s
  obtain ⟨-, henc⟩ := decUnit_keeps_enc (exec_eq_decUnit i s ▸ ht)
  rw [ht]
  exact encMove_of_waiting (henc ▸ hst) (henc ▸ hph)

/-- Settles O17: DEC's move is the unit's meaning. -/
theorem stepRunsTheDecodedUnit : Obligations.StepRunsTheDecodedUnit := by
  intro s i rest hst hph hm hpos hdecode
  have hstep : step s = andThen (exec i s) encMove := by rw [step, decMove_of_unit hst hph hm hpos hdecode]
  exact ⟨hstep, fun henc hidle => hstep.trans (andThen_exec_encMove i henc hidle)⟩

theorem decode_append {c : Cfg} {bytes rest : List Byte} {i : Instr} (h : decode c bytes = .ok (i, rest))
    (more : List Byte) : decode c (bytes ++ more) = .ok (i, rest ++ more) := by
  obtain ⟨b0, b1, b2, b3, rfl, hlead, hi⟩ := decode_ok_iff.mp h
  exact decode_ok_iff.mpr ⟨b0, b1, b2, b3, rfl, hlead, hi⟩

/-- The bytes that `decWithUnit` puts before the unit fill the source up to `pos`. -/
theorem decWithUnit_src_drop (unit : List Byte) (d : Dec) :
    (decWithUnit unit d).src.drop d.pos = unit ++ d.src.drop (d.pos + 4) := by
  have hbefore : (d.src.take d.pos ++ List.replicate (d.pos - d.src.length) 0#8).length = d.pos := by
    simp only [List.length_append, List.length_take, List.length_replicate]
    omega
  rw [decWithUnit, List.append_assoc, List.drop_left' hbefore]

/-- Settles O18: the placed word is a complete unit at `pos` that decodes to the unit. -/
theorem fetchWordIsRunNext : Obligations.FetchWordIsRunNext := by
  intro s w i rest hdecode hst hidle
  have henc : (s.withFetchWord 32 w).enc = s.enc := if_neg hidle
  have hsrc := decWithUnit_src_drop (tableBytes 32 w) s.dec
  have hunit : s.dec.pos + 4 ≤ (decWithUnit (tableBytes 32 w) s.dec).src.length := by
    have hlength := congrArg List.length hsrc
    rw [List.length_drop, List.length_append, show (tableBytes 32 w).length = 4 from rfl] at hlength
    omega
  obtain ⟨-, hstep⟩ := stepRunsTheDecodedUnit (s.withFetchWord 32 w) i (rest ++ s.dec.src.drop (s.dec.pos + 4)) rfl rfl
    le_rfl hunit (by rw [← decode_append hdecode, ← hsrc]; rfl)
  exact hstep (henc ▸ hst) (henc ▸ hidle)

/-- Settles O19: what decodes has a right lead nibble, so these bytes do not decode. -/
theorem badLeadByteIsMalformed : Obligations.BadLeadByteIsMalformed := by
  intro s b0 hst hph hm hpos hread hlead
  refine ⟨_, ?_, malformed_raiseMalformed s.dec.pos s⟩
  rw [decMove_of_running hst hph]
  cases hdecode : decode s.cfg (s.dec.src.drop s.dec.pos) with
  | error e => exact decRun_of_badLead hm hpos hdecode
  | ok p =>
    obtain ⟨b, b1, b2, b3, hbytes, hright, -⟩ := decode_ok_iff.mp hdecode
    have hb : s.dec.src[s.dec.pos]? = some b := by rw [← List.head?_drop, hbytes]; rfl
    cases hread.symm.trans hb
    exact absurd hright hlead

/-- Settles O20: the end of the loop is one of `decFinish_cases`. -/
theorem endOfStreamIsDoneOrMalformed : Obligations.EndOfStreamIsDoneOrMalformed := by
  intro s hst hph hm hpos
  refine ⟨decFinish s, by rw [decMove_of_running hst hph, decRun_of_end hm hpos], ?_⟩
  rcases decFinish_cases s with ⟨hend, hdone, hdst⟩ | ⟨hmore, hmalformed⟩
  · exact ⟨fun _ => ⟨hdone, by simp only [decDst, hdone, hdst], by simp only [decErrOffset, hdone]⟩, (absurd hend ·)⟩
  · exact ⟨(absurd · hmore), fun _ => hmalformed ▸ malformed_raiseMalformed s.dec.pos s⟩

/-! ### The one-piece pass reads bytes, DEC reads the fields of a unit -/

/-- The part of DEC that the one-piece pass holds (41_decode.md R151). -/
def Dec.pass (d : Dec) : Pass := ⟨d.acc, d.nbits, d.dst⟩

@[simp] theorem Dec.pass_dst (d : Dec) : d.pass.dst = d.dst := rfl

/-- The pass's feed is DEC's, in arithmetic instead of bit operations. -/
theorem passByte_eq_decFeed (b : Byte) (d : Dec) : passByte b d.pass = (decFeed (payloadOfByte b).d d).pass := by
  have hfield : (payloadOfByte b).d.toNat = b.toNat % 64 := by simp [payloadOfByte]
  have hacc : d.acc * 64 + b.toNat % 64 = d.acc <<< 6 ||| (payloadOfByte b).d.toNat := by
    rw [hfield, ← Nat.shiftLeft_add_eq_or_of_lt (Nat.mod_lt _ (by decide) : b.toNat % 64 < 2 ^ 6), Nat.shiftLeft_eq]
  have hbyte : ∀ n : Nat, BitVec.ofNat 8 (n &&& 0xFF) = BitVec.ofNat 8 n := fun n => by
    rw [show (0xFF : Nat) = 2 ^ 8 - 1 from rfl, Nat.and_two_pow_sub_one_eq_mod]
    exact BitVec.eq_of_toNat_eq (by rw [BitVec.toNat_ofNat, BitVec.toNat_ofNat, Nat.mod_mod])
  unfold passByte decFeed
  simp only [Dec.pass, hacc, hbyte, Nat.one_shiftLeft, Nat.and_two_pow_sub_one_eq_mod, Nat.shiftRight_eq_div_pow,
    dstAppend]
  split <;> rfl

/-- The pass's marker test is DEC's (41_decode.md R141). -/
theorem marker_test : ∀ (b : Byte) (m : BitVec 2), b >>> 6 = m.setWidth 8 ↔ (payloadOfByte b).cm = m := by decide

/-- The pass's lead test is the decoder's (41_decode.md R132). -/
theorem lead_test (b : Byte) (hi : BitVec 4) : b >>> 4 = hi.setWidth 8 ↔ b.extractLsb' 4 4 = hi := by
  have hnibble : ∀ b : Byte, b >>> 4 = (b.extractLsb' 4 4).setWidth 8 := by decide
  rw [hnibble]
  exact ⟨fun h => by simpa using congrArg (BitVec.setWidth 4) h, congrArg (BitVec.setWidth 8)⟩

/-- The fields of the bytes at the given positions. -/
def payloadsOf (L : List (Nat × Byte)) : List (Nat × Payload) := L.map fun e => (e.1, payloadOfByte e.2)

/-- The inner loop of the pass is DEC's consumption. -/
theorem passBytes_eq_decConsumeAll (c : Cfg) (pos : Nat) (L : List (Nat × Byte)) (d : Dec) :
    passBytes c pos L d.pass = (decConsumeAll c pos (payloadsOf L) d).map Dec.pass := by
  induction L generalizing d with
  | nil => rfl
  | cons e L ih =>
    obtain ⟨j, b⟩ := e
    by_cases h : (payloadOfByte b).cm = c.cont
    · simpa [passBytes, payloadsOf, decConsumeAll, decConsume, marker_test, h, passByte_eq_decFeed] using ih _
    · simp [passBytes, payloadsOf, decConsumeAll, decConsume, marker_test, h, Except.map]

/-- The pass's tag test is the dispatch's: `TAG_RSV` is the tag with both bits set (30_encoding.md R74). -/
theorem tag_test : ∀ b : Byte, b &&& 3#8 = 3#8 ↔ ¬ b.extractLsb' 0 1 = 0#1 ∧ ¬ b.extractLsb' 1 1 = 0#1 := by decide

theorem skip_value : ∀ b : Byte, (b &&& 1#8).toNat = (b.extractLsb' 0 1).toNat := by decide

theorem plane_value : ∀ b : Byte, (b >>> 1) &&& 3#8 = (b.extractLsb' 1 2).setWidth 8 := by decide

theorem flag_value : ∀ b : Byte, b &&& 1#8 = (b.extractLsb' 0 1).setWidth 8 := by decide

/-- The list `L` of the pass (41_decode.md R151) holds what the dispatched unit consumes. -/
theorem payloadsOf_passList (c : Cfg) (b0 b1 b2 b3 : Byte) :
    payloadsOf (passList c b0 b1 b2 b3) = consumedOperands c (dispatchUnit c b0 b1 b2 b3) := by
  unfold dispatchUnit passList
  simp only [tag_test, skip_value]
  by_cases ht0 : b0.extractLsb' 0 1 = 0#1
  · simp [ht0, payloadsOf, consumedOperands, allOperands]
  by_cases ht1 : b0.extractLsb' 1 1 = 0#1
  · simp [ht0, ht1, payloadsOf, consumedOperands, allOperands]
  by_cases hncm : b1 = c.ncm
  · simp [ht0, ht1, hncm, payloadsOf, consumedOperands, ncsOperands, allOperands, plane_value, flag_value, ncsByte1,
      ncsByte2, ncsByte3]
  by_cases hskip : b1.extractLsb' 0 1 = 0#1
  · simp [ht0, ht1, hncm, hskip, payloadsOf, consumedOperands, skip1Operands]
  · simp [ht0, ht1, hncm, (BitVec.eq_zero_or_eq_one _).resolve_left hskip, payloadsOf, consumedOperands,
      skip2Operands]

/-! ### The outer loop of the pass, by what stands at `pos` -/

/-- Of a unit DEC does not accept, some consumed position is the first without the marker. -/
theorem exists_first_unmarked {c : Cfg} {i : Instr} (h : ¬ i.accepted c = true) :
    ∃ e, (consumedOperands c i).find? (fun e => e.2.cm ≠ c.cont) = some e := by
  rw [accepted_iff_consumed_marked] at h
  push Not at h
  exact Option.isSome_iff_exists.mp (List.find?_isSome.mpr (by simpa using h))

section Pass

variable {c : Cfg} {bytes rest : List Byte} {i : Instr}

/-- A unit DEC accepts: the pass goes on after it, with its fields fed. -/
theorem passUnits_of_accepted (hdecode : decode c bytes = .ok (i, rest)) (h : i.accepted c = true) (pos : Nat)
    (d : Dec) : passUnits c bytes pos d.pass = passUnits c rest (pos + 4) (decUnitDone c i d).pass := by
  obtain ⟨b0, b1, b2, b3, rfl, hlead, rfl⟩ := decode_ok_iff.mp hdecode
  have hfed := (decConsumeAll_ok_iff c pos _ d _).mpr ⟨(accepted_iff_consumed_marked c _).mp h, rfl⟩
  rw [passUnits, if_neg (not_not.mpr ((lead_test b0 c.leadHi).mpr hlead)), passBytes_eq_decConsumeAll,
    payloadsOf_passList, hfed]
  rfl

/-- A unit with an unmarked consumed position ends the pass at the first one. -/
theorem passUnits_of_unmarked (hdecode : decode c bytes = .ok (i, rest)) {e : Nat × Payload}
    (h : (consumedOperands c i).find? (fun e => e.2.cm ≠ c.cont) = some e) (pos : Nat) (d : Dec) :
    passUnits c bytes pos d.pass = .malformed (pos + e.1) := by
  obtain ⟨b0, b1, b2, b3, rfl, hlead, rfl⟩ := decode_ok_iff.mp hdecode
  have hfail := (decConsumeAll_error_iff c pos _ d _).mpr ⟨e, h, rfl⟩
  rw [passUnits, if_neg (not_not.mpr ((lead_test b0 c.leadHi).mpr hlead)), passBytes_eq_decConsumeAll,
    payloadsOf_passList, hfail]
  rfl

/-- A wrong lead byte, or a length of 1 to 3, ends the pass where it stands. -/
theorem passUnits_of_undecoded {e : DecodeError} (hdecode : decode c bytes = .error e) (hne : bytes ≠ []) (pos : Nat)
    (p : Pass) : passUnits c bytes pos p = .malformed pos := by
  match bytes, hne with
  | [_], _ => rfl
  | [_, _], _ => rfl
  | [_, _, _], _ => rfl
  | b0 :: b1 :: b2 :: b3 :: rest, _ =>
    refine if_pos fun hlead => ?_
    have hok : decode c (b0 :: b1 :: b2 :: b3 :: rest) = .ok (_, rest) :=
      decode_ok_iff.mpr ⟨b0, b1, b2, b3, rfl, (lead_test b0 c.leadHi).mp hlead, rfl⟩
    cases hdecode.symm.trans hok

theorem decode_of_short (h : bytes.length < 4) : decode c bytes = .error (.short bytes.length) := by
  match bytes, h with
  | [], _ => rfl
  | [_], _ => rfl
  | [_, _], _ => rfl
  | [_, _, _], _ => rfl

/-- A pass that delivers bytes is at the end of the source, or goes on after a unit DEC accepts. -/
theorem passUnits_ok_cases {pos : Nat} {d : Dec} {out : List Byte} (h : passUnits c bytes pos d.pass = .ok out) :
    (bytes = [] ∧ out = d.dst) ∨
      ∃ i rest, decode c bytes = .ok (i, rest) ∧ passUnits c rest (pos + 4) (decUnitDone c i d).pass = .ok out := by
  by_cases hnil : bytes = []
  · subst hnil
    cases h
    exact .inl ⟨rfl, rfl⟩
  cases hdecode : decode c bytes with
  | error e =>
    rw [passUnits_of_undecoded hdecode hnil] at h
    cases h
  | ok p =>
    obtain ⟨i, rest⟩ := p
    by_cases hacc : i.accepted c = true
    · exact .inr ⟨i, rest, rfl, passUnits_of_accepted hdecode hacc pos d ▸ h⟩
    · obtain ⟨e, he⟩ := exists_first_unmarked hacc
      rw [passUnits_of_unmarked hdecode he] at h
      cases h

theorem unitsOf_of_decode (hdecode : decode c bytes = .ok (i, rest)) :
    bytes.length = rest.length + 4 ∧ bytes.drop 4 = rest ∧ unitsOf c bytes = i :: unitsOf c rest := by
  obtain ⟨b0, b1, b2, b3, rfl, -, rfl⟩ := decode_ok_iff.mp hdecode
  exact ⟨rfl, rfl, rfl⟩

end Pass

/-! ### What DEC will answer -/

/-- The result DEC shows, or in RUN the one that the pass over the rest of the source comes to. -/
def decForecast (c : Cfg) (d : Dec) : Option DecResult :=
  match d.phase with
  | .idle => none
  | .run => some (passUnits c (d.src.drop d.pos) d.pos d.pass)
  | .done => some (.ok d.dst)
  | .fault => some (.malformed d.errOff)

theorem decForecast_of_run (c : Cfg) {d : Dec} (h : d.phase = .run) :
    decForecast c d = some (passUnits c (d.src.drop d.pos) d.pos d.pass) := by
  simp [decForecast, h]

theorem decResult_eq_decForecast (c : Cfg) {t : State} (h : t.dec.phase ≠ .run) :
    decResult t = decForecast c t.dec := by
  unfold decResult decForecast
  cases hph : t.dec.phase with
  | idle => rfl
  | run => exact absurd hph h
  | done => rfl
  | fault => rfl

/-- No move of DEC but the taking of a START changes what it will answer. -/
theorem decMove_keeps_decForecast {s t : State} (hinv : DecInv s.dec) (hst : s.dec.start = none)
    (h : decMove s = .next t) : decForecast s.cfg t.dec = decForecast s.cfg s.dec := by
  rcases decMove_cases h with ⟨src, hsome, -⟩ | ⟨-, hrun, -, hpos, ⟨i, rest, hdecode, hx⟩ | ⟨e, hdecode, rfl⟩⟩ |
    ⟨-, hrun, -, hpos, rfl⟩ | ⟨-, -, rfl⟩
  · cases hst.symm.trans hsome
  · rw [decForecast_of_run s.cfg hrun]
    rcases exec_cases hx with ⟨hmarked, rfl⟩ | ⟨e, he, rfl⟩
    · obtain ⟨hsrc, -, hpos', hph, -⟩ := decUnitDone_frame s.cfg i s.dec
      obtain ⟨-, hrest, -⟩ := unitsOf_of_decode hdecode
      rw [List.drop_drop] at hrest
      rw [passUnits_of_accepted hdecode ((accepted_iff_consumed_marked s.cfg i).mpr hmarked), ← hrest]
      exact (decForecast_of_run s.cfg (hph.trans hrun)).trans (by rw [hsrc, hpos'])
    · rw [passUnits_of_unmarked hdecode he]
      rfl
  · have hne : s.dec.src.drop s.dec.pos ≠ [] := by
      obtain ⟨hm, -⟩ := hinv hrun
      simp only [ne_eq, List.drop_eq_nil_iff]
      omega
    rw [decForecast_of_run s.cfg hrun, passUnits_of_undecoded hdecode hne]
    rfl
  · obtain ⟨hm, -, hle, -⟩ := hinv hrun
    rw [decForecast_of_run s.cfg hrun]
    rcases decFinish_cases s with ⟨hend, hdone, hdst⟩ | ⟨hmore, hmalformed⟩
    · rw [List.drop_eq_nil_of_le (by omega)]
      simp only [decForecast, hdone, hdst, passUnits, Dec.pass_dst]
    · have hshort : (s.dec.src.drop s.dec.pos).length < 4 := by
        rw [List.length_drop]
        omega
      have hne : s.dec.src.drop s.dec.pos ≠ [] := by
        simp only [ne_eq, List.drop_eq_nil_iff]
        omega
      rw [hmalformed, passUnits_of_undecoded (decode_of_short hshort) hne]
      rfl
  · rfl

/-! ### The run of a DECODE -/

/-- The steps a running DEC has to make: a unit step for each complete unit left, and the end check. -/
def decStepsLeft (d : Dec) : Nat := if d.phase = .run then (d.m - d.pos) / 4 + 1 else 0

theorem decStepsLeft_of_not_run {d : Dec} (h : d.phase ≠ .run) : decStepsLeft d = 0 := if_neg h

theorem not_run_of_decStepsLeft {d : Dec} (h : decStepsLeft d = 0) : d.phase ≠ .run := by
  intro hrun
  simp [decStepsLeft, hrun] at h

/-- Every move of a running DEC leaves one step less. -/
theorem decMove_decStepsLeft {s t : State} (hst : s.dec.start = none) (h : decMove s = .next t) :
    decStepsLeft t.dec ≤ decStepsLeft s.dec - 1 := by
  by_cases hrun : s.dec.phase = .run
  · rcases decMove_of_run_cases hrun h with ⟨hunit, i, ht⟩ | ht | ht
    · obtain ⟨-, hm, hpos, hph, -⟩ := decUnitDone_frame s.cfg i s.dec
      rw [ht, decStepsLeft, decStepsLeft, hm, hpos, hph, if_pos hrun, if_pos hrun]
      omega
    · simp [decStepsLeft, ht]
    · simp [decStepsLeft, ht]
  · rcases decMove_of_not_run_cases hrun h with ⟨src, hsome, -⟩ | ⟨-, ht⟩
    · cases hst.symm.trans hsome
    · simp [ht, decStepsLeft_of_not_run hrun]

/-- A move of ENC leaves no START standing: it takes the one presented, and makes none. -/
theorem encMove_takes_start {s t : State} (h : encMove s = .next t) : t.enc.start = none := by
  rcases encMove_cases h with ⟨src, -, -, rfl⟩ | ⟨hst, -, -, -, rfl⟩ | ⟨hst, -, -, -, rfl⟩ | ⟨hst, -, rfl⟩
  · rfl
  · obtain ⟨hstart, -⟩ := encUnitStep_frame s.cfg s.enc
    exact hstart.trans hst
  · exact hst
  · exact hst

/-- A move of DEC leaves no START standing. -/
theorem decMove_takes_start {s t : State} (h : decMove s = .next t) : t.dec.start = none := by
  cases hst : s.dec.start with
  | none => exact decMove_start_eq_none hst h
  | some src =>
    rcases decMove_cases h with ⟨_, -, -, rfl⟩ | ⟨hnone, -⟩ | ⟨hnone, -⟩ | ⟨hnone, -⟩
    · rfl
    all_goals cases hst.symm.trans hnone

theorem step_takes_starts {s t : State} (h : step s = .next t) : t.dec.start = none ∧ t.enc.start = none := by
  obtain ⟨u, hdec, henc, htd, -⟩ := step_parts h
  exact ⟨htd ▸ decMove_takes_start hdec, encMove_takes_start henc⟩

/-- A step, and then a run of `k` steps. -/
theorem core_run_succ_of_step {k : Nat} {s u t : State} (hstep : step s = .next u) (h : core.run k u = .next t) :
    core.run (k + 1) s = .next t := by
  rw [core_run_succ, hstep]
  exact h

/-- With steps enough, DEC comes to the result it was to answer, whatever ENC does beside it: by induction on the steps,
each of which keeps the forecast and leaves one step less. -/
theorem core_run_reaches_decForecast {k : Nat} {s : State} (hinv : Inv s) (hdec : s.dec.start = none)
    (henc : s.enc.start = none) (hk : decStepsLeft s.dec ≤ k) :
    ∃ t, core.run k s = .next t ∧ decResult t = decForecast s.cfg s.dec := by
  induction k generalizing s with
  | zero => exact ⟨s, rfl, decResult_eq_decForecast s.cfg (not_run_of_decStepsLeft (Nat.le_zero.mp hk))⟩
  | succ k ih =>
    obtain ⟨u, hu⟩ := stepAlwaysAnswers s hinv (.inl hdec) (.inl henc)
    obtain ⟨v, hmove, -, hud, -, -, huc⟩ := step_parts hu
    obtain ⟨hdec', henc'⟩ := step_takes_starts hu
    have hleft := decMove_decStepsLeft hdec hmove
    obtain ⟨t, ht, hresult⟩ := ih (stepKeepsTheInvariant s u hinv hu) hdec' henc' (by rw [hud]; omega)
    refine ⟨t, core_run_succ_of_step hu ht, ?_⟩
    rw [hresult, huc, hud, decMove_keeps_decForecast hinv.2 hdec hmove]

/-- Settles O46: the START makes the pass over the whole source what DEC will answer, and leaves `m div 4 + 1` steps. -/
theorem decodeMatchesTheOnePass : Obligations.DecodeMatchesTheOnePass := by
  intro s src ⟨⟨hencInv, hdecInv⟩, henc, hidle⟩
  have hinv : Inv (presentStart .dec src s) := ⟨hencInv, hdecInv⟩
  obtain ⟨u, hu⟩ := stepAlwaysAnswers (presentStart .dec src s) hinv (.inr hidle) (.inl henc)
  obtain ⟨v, hmove, -, hud, -, -, huc⟩ := step_parts hu
  obtain ⟨hdec', henc'⟩ := step_takes_starts hu
  cases hmove.symm.trans (decMove_of_start (s := presentStart .dec src s) rfl hidle)
  have hleft : decStepsLeft u.dec ≤ src.length / 4 + 1 := by rw [hud]; rfl
  obtain ⟨t, ht, hresult⟩ := core_run_reaches_decForecast (stepKeepsTheInvariant _ u hinv hu) hdec' henc' hleft
  refine ⟨t, core_run_succ_of_step hu ht, ?_⟩
  rw [hresult, hud, huc]
  rfl

/-- The result of a DECODE run is that of the one-piece pass. -/
theorem decResult_of_decodeRun {s t : State} {src : List Byte} (hready : ReadyDec s) (h : DecodeRun s src t) :
    decResult t = some (decodeAll s.cfg src) := by
  obtain ⟨t', ht', hresult⟩ := decodeMatchesTheOnePass s src hready
  cases h.symm.trans ht'
  exact hresult

theorem decDst_eq_some_iff {t : State} {bytes : List Byte} :
    decDst t = some bytes ↔ decResult t = some (.ok bytes) := by
  unfold decDst decResult
  cases t.dec.phase <;> simp

/-! ### The payload stream -/

/-- The payload bits of the complete units of a source, in order (41_decode.md R142, R150). -/
def payloadStream (c : Cfg) (bytes : List Byte) : List Bool :=
  (unitsOf c bytes).flatMap fun i => payloadBits (classify i)

@[simp] theorem payloadStream_nil (c : Cfg) : payloadStream c [] = [] := rfl

theorem payloadStream_of_decode {c : Cfg} {bytes rest : List Byte} {i : Instr}
    (h : decode c bytes = .ok (i, rest)) :
    payloadStream c bytes = payloadBits (classify i) ++ payloadStream c rest := by
  obtain ⟨-, -, hunits⟩ := unitsOf_of_decode h
  rw [payloadStream, hunits, List.flatMap_cons, payloadStream]

/-- What a pass that delivers bytes has fed is what it delivers, and the fewer than 8 bits left at the end: by induction
on the length of the source left. -/
theorem passUnits_ok_stream {c : Cfg} {out : List Byte} (bytes : List Byte) {pos : Nat} {d : Dec} (hn : d.nbits ≤ 7)
    (h : passUnits c bytes pos d.pass = .ok out) :
    bytes.length % 4 = 0 ∧
      ∃ tail, tail.length < 8 ∧ decBits d ++ payloadStream c bytes = bitStream out ++ tail := by
  rcases passUnits_ok_cases h with ⟨rfl, rfl⟩ | ⟨i, rest, hdecode, hrest⟩
  · exact ⟨rfl, bitsOf d.nbits d.acc, by simpa using Nat.lt_succ_of_le hn, by simp [decBits]⟩
  · obtain ⟨hlength, -, -⟩ := unitsOf_of_decode hdecode
    obtain ⟨hmod, tail, htail, hstream⟩ :=
      passUnits_ok_stream rest (d := decUnitDone c i d) (decFeedAll_nbits_le _ hn) hrest
    refine ⟨by omega, tail, htail, ?_⟩
    rw [← hstream, decBits_decUnitDone, payloadStream_of_decode hdecode, List.append_assoc]
termination_by bytes.length

/-- The pass starts with no bits held and none emitted. -/
theorem decodeAll_ok_stream {c : Cfg} {src out : List Byte} (h : decodeAll c src = .ok out) :
    src.length % 4 = 0 ∧ ∃ tail, tail.length < 8 ∧ payloadStream c src = bitStream out ++ tail :=
  passUnits_ok_stream src (d := Dec.reset) (Nat.zero_le 7) h

/-- Settles O48: the run has the result of the one-piece pass. -/
theorem decodeEmitsThePayloadStream : Obligations.DecodeEmitsThePayloadStream := by
  intro s t src bytes hready hrun hdst
  have hpass := (decResult_of_decodeRun hready hrun).symm.trans (decDst_eq_some_iff.mp hdst)
  exact decodeAll_ok_stream (Option.some.inj hpass)

/-! ### The length of a result -/

@[simp] theorem bitStream_length (bytes : List Byte) : (bitStream bytes).length = 8 * bytes.length := by
  simp [bitStream, List.length_flatMap, Nat.mul_comm]

/-- A unit's payload is 6 bits for each field (41_decode.md R147, R148). -/
theorem payloadBits_length (i : Instr) : (payloadBits (classify i)).length = 6 * fieldCount i := by
  cases i <;> simp [payloadBits, classify, fieldBits, fieldCount]

theorem payloadStream_length (c : Cfg) (bytes : List Byte) :
    (payloadStream c bytes).length = 6 * ((unitsOf c bytes).map fieldCount).sum := by
  rw [payloadStream, List.length_flatMap, ← List.sum_map_mul_left]
  simp only [payloadBits_length]

theorem unitsOf_length (c : Cfg) : ∀ bytes : List Byte, (unitsOf c bytes).length = bytes.length / 4
  | [] => rfl
  | [_] | [_, _] | [_, _, _] => by simp [unitsOf]
  | b0 :: b1 :: b2 :: b3 :: rest => by
    have ih := unitsOf_length c rest
    simp only [unitsOf, List.length_cons, ih]
    omega

theorem fieldCount_le_three (i : Instr) : fieldCount i ≤ 3 :=
  consumedOperands_length Cfg.decided i ▸ consumedOperands_length_le Cfg.decided i

theorem fieldCount_sum_le (units : List Instr) : (units.map fieldCount).sum ≤ 3 * units.length := by
  have hle := List.sum_le_card_nsmul (units.map fieldCount) 3 (by
    intro n hn
    obtain ⟨i, -, rfl⟩ := List.mem_map.mp hn
    exact fieldCount_le_three i)
  simpa [Nat.mul_comm] using hle

/-- Settles O49: the whole bytes of the payload stream, at most 18 bits a unit. -/
theorem decodeOutputLength : Obligations.DecodeOutputLength := by
  intro s t src len hready hrun hlen
  obtain ⟨bytes, hdst, rfl⟩ := Option.map_eq_some_iff.mp hlen
  obtain ⟨-, tail, htail, hstream⟩ := decodeEmitsThePayloadStream s t src bytes hready hrun hdst
  have hbits := congrArg List.length hstream
  rw [← payloadStream, payloadStream_length, List.length_append, bitStream_length] at hbits
  have hfields := fieldCount_sum_le (unitsOf s.cfg src)
  rw [unitsOf_length] at hfields
  omega

/-! ### Bytes from their bits -/

theorem bitsOf_toNat_injective (w : Nat) : Function.Injective fun v : BitVec w => bitsOf w v.toNat := by
  intro v v' h
  refine BitVec.eq_of_getLsbD_eq fun i hi => ?_
  have hbit := congrArg (·[w - 1 - i]?) h
  simpa [bitsOf, show w - 1 - i < w by omega, show w - 1 - (w - 1 - i) = i by omega, BitVec.testBit_toNat] using hbit

theorem bitStream_injective : Function.Injective bitStream := by
  intro x
  induction x with
  | nil =>
    intro y h
    have hlength : 0 = 8 * y.length := by simpa using congrArg List.length h
    exact (List.length_eq_zero_iff.mp (by omega)).symm
  | cons b x ih =>
    intro y h
    cases y with
    | nil => simpa using congrArg List.length h
    | cons b' y =>
      obtain ⟨hb, hrest⟩ := List.append_inj h (by simp)
      rw [bitsOf_toNat_injective 8 hb, ih hrest]

/-- Fewer than 8 bits after a byte stream do not blur its end. -/
theorem bytes_eq_of_bitStream_append_eq {x y : List Byte} {tail tail' : List Bool} (htail : tail.length < 8)
    (htail' : tail'.length < 8) (h : bitStream x ++ tail = bitStream y ++ tail') : x = y := by
  have hlength := congrArg List.length h
  simp only [List.length_append, bitStream_length] at hlength
  obtain ⟨hstream, -⟩ := List.append_inj h (by simp only [bitStream_length]; omega)
  exact bitStream_injective hstream

/-! ### The payload of an ENCODE result -/

/-- A substitute has the payload of the unit it replaces (40_encode.md R112). -/
theorem payloadBits_settledInstr (c : Cfg) (special : BitVec 1) (d1 d2 d3 : Sextet) {i : Instr}
    (hi : payloadBits (classify i) = fieldBits d1 ++ fieldBits d2 ++ fieldBits d3) :
    payloadBits (classify (settledInstr c special d1 d2 d3 i)) = fieldBits d1 ++ fieldBits d2 ++ fieldBits d3 := by
  unfold settledInstr
  split_ifs with hd
  · obtain ⟨hd1, hd2, hd3⟩ := fields_of_noncharFields hd
    rw [Instr.mkNcs, classify, payloadBits_substitute, ← substituteFields_bits, hd1, ← hd2, hd3]
  · exact hi

/-- The payload bits of a final unit of remainder `r`: those of the fields that are not all padding (40_encode.md
R107). -/
def finalWidth (r : Nat) : Nat := if r = 0 ∨ 12 ≤ r then 18 else if 6 ≤ r then 12 else 6

/-- The final unit's payload ends fewer than 8 bits after the input (40_encode.md R107). -/
theorem finalWidth_pads {n k : Nat} (h : (8 * n + 17) / 18 = k + 1) :
    ∃ w < 8, 18 * k + finalWidth (8 * n % 18) = 8 * n + w := by
  have hlast : 8 * n = 18 * k + 18 ∨ 8 * n = 18 * k + 8 * n % 18 ∧ 8 * n % 18 ≠ 0 := by
    have hq : 8 * n / 18 = k ∨ 8 * n / 18 = k + 1 := by omega
    omega
  refine ⟨18 * k + finalWidth (8 * n % 18) - 8 * n, ?_⟩
  unfold finalWidth
  split_ifs <;> omega

/-- A unit of three fields that are 18 bits of the source in a row feeds those bits, a final unit the first of them. -/
theorem payloadBits_encodedInstr (c : Cfg) (src : List Byte) (u : Nat) :
    payloadBits (classify (encodedInstr c src u)) =
      streamBits src (18 * u)
        (if u + 1 = unitCount c src.length then finalWidth (8 * src.length % 18) else 18) := by
  have h1 : fieldBits (naturalField src (3 * u)) = streamBits src (18 * u) 6 := by
    rw [fieldBits_naturalField, show 6 * (3 * u) = 18 * u by omega]
  have h2 : fieldBits (naturalField src (3 * u + 1)) = streamBits src (18 * u + 6) 6 := by
    rw [fieldBits_naturalField, show 6 * (3 * u + 1) = 18 * u + 6 by omega]
  have h3 : fieldBits (naturalField src (3 * u + 2)) = streamBits src (18 * u + 12) 6 := by
    rw [fieldBits_naturalField, show 6 * (3 * u + 2) = 18 * u + 12 by omega]
  have h12 : streamBits src (18 * u) 12 = streamBits src (18 * u) 6 ++ streamBits src (18 * u + 6) 6 :=
    streamBits_add src (18 * u) 6 6
  have h18 : streamBits src (18 * u) 18 = streamBits src (18 * u) 12 ++ streamBits src (18 * u + 12) 6 :=
    streamBits_add src (18 * u) 12 6
  unfold encodedInstr emittedInstr finalWidth
  simp only [beq_iff_eq]
  split_ifs
  · rw [payloadBits_settledInstr c _ _ _ _ rfl, h18, h12, h1, h2, h3]
  · rw [h12, ← h1, ← h2]
    rfl
  · exact h1
  · rw [payloadBits_settledInstr c _ _ _ _ rfl, h18, h12, h1, h2, h3]

/-- Units of 18 stream bits in a row. -/
theorem flatMap_range_streamBits (src : List Byte) (k : Nat) {f : Nat → List Bool}
    (hf : ∀ u < k, f u = streamBits src (18 * u) 18) : (List.range k).flatMap f = streamBits src 0 (18 * k) := by
  induction k with
  | zero => rfl
  | succ k ih =>
    rw [List.range_succ, List.flatMap_append, List.flatMap_singleton, ih fun u hu => hf u (Nat.lt_succ_of_lt hu),
      hf k (Nat.lt_succ_self k), Nat.mul_succ, streamBits_add, Nat.zero_add]

/-- The stream from its start over its whole length is the stream; what follows is padding. -/
theorem streamBits_eq_bitStream_append (src : List Byte) (w : Nat) :
    streamBits src 0 (8 * src.length + w) = bitStream src ++ streamBits src (8 * src.length) w := by
  rw [streamBits_add, Nat.zero_add]
  congr 1
  refine List.ext_getElem (by simp) fun j hj _ => ?_
  rw [streamBits_length] at hj
  simp [streamBits, hj]

/-- The units of an ENCODE result feed the input's bits, and fewer than 8 bits of padding (40_encode.md R107). -/
theorem encodedInstrs_stream {c : Cfg} (hempty : c.emptyUnits = 0) (src : List Byte) :
    ∃ tail, tail.length < 8 ∧
      (encodedInstrs c src).flatMap (fun i => payloadBits (classify i)) = bitStream src ++ tail := by
  rw [encodedInstrs, List.flatMap_map]
  have hcount := unitCount_of_no_empty_unit hempty src.length
  cases hU : unitCount c src.length with
  | zero =>
    have hnil : src = [] := List.length_eq_zero_iff.mp (by omega)
    exact ⟨[], by decide, by simp [hnil, bitStream]⟩
  | succ k =>
    have hinner : ∀ u < k, payloadBits (classify (encodedInstr c src u)) = streamBits src (18 * u) 18 := fun u hu => by
      rw [payloadBits_encodedInstr, if_neg (by omega)]
    have hlast : payloadBits (classify (encodedInstr c src k)) =
        streamBits src (18 * k) (finalWidth (8 * src.length % 18)) := by
      rw [payloadBits_encodedInstr, if_pos hU.symm]
    obtain ⟨w, hw, htotal⟩ := finalWidth_pads (hcount.symm.trans hU)
    refine ⟨streamBits src (8 * src.length) w, by rwa [streamBits_length], ?_⟩
    rw [← streamBits_eq_bitStream_append, ← htotal, streamBits_add, Nat.zero_add, List.range_succ,
      List.flatMap_append, List.flatMap_singleton, hlast, flatMap_range_streamBits src k hinner]

/-! ### The round trip -/

/-- Each unit ENC can emit is one DEC accepts (30_encoding.md R84, R85). -/
theorem accepted_of_canonical {c : Cfg} {i : Instr} (h : i.canonical c = true) : i.accepted c = true := by
  rcases canonical_cases h with ⟨_, _, _, rfl, -⟩ | ⟨_, _, _, rfl, -⟩ | ⟨_, _, _, rfl⟩ | ⟨_, _, rfl⟩ | ⟨_, rfl⟩ <;>
    simp [Instr.mkReg, Instr.mkTun, Instr.mkNcs, Instr.mkTpd1, Instr.mkTpd2, Instr.accepted]

theorem unitsOf_flatMap_encode {c : Cfg} {units : List Instr} (hwf : ∀ i ∈ units, i.wf c = true) :
    unitsOf c (units.flatMap (encode c)) = units := by
  induction units with
  | nil => rfl
  | cons i units ih =>
    obtain ⟨hi, hrest⟩ := List.forall_mem_cons.mp hwf
    obtain ⟨-, -, hunits⟩ := unitsOf_of_decode (decodeInvertsEncode c i (units.flatMap (encode c)) hi)
    rw [List.flatMap_cons, hunits, ih hrest]

/-- The pass over units DEC accepts delivers bytes. -/
theorem passUnits_of_accepted_units {c : Cfg} {units : List Instr}
    (h : ∀ i ∈ units, i.wf c = true ∧ i.accepted c = true) (pos : Nat) (d : Dec) :
    ∃ out, passUnits c (units.flatMap (encode c)) pos d.pass = .ok out := by
  induction units generalizing pos d with
  | nil => exact ⟨d.dst, rfl⟩
  | cons i units ih =>
    obtain ⟨⟨hwf, hacc⟩, hrest⟩ := List.forall_mem_cons.mp h
    rw [List.flatMap_cons, passUnits_of_accepted (decodeInvertsEncode c i _ hwf) hacc]
    exact ih hrest _ _

/-- The round trip in one piece (41_decode.md R146): the units of the encoding are accepted, and their payload is the
input's bits, so the whole bytes of it are the input. -/
theorem decodeAll_encodeAll {c : Cfg} (hlegal : c.Legal) (hempty : c.emptyUnits = 0) (x : List Byte) :
    decodeAll c (encodeAll c x) = .ok x := by
  have ⟨htag, _, _⟩ := hlegal
  obtain ⟨hunits, -⟩ := encodedInstrs_canonicalStream hlegal x
  have haccepted : ∀ i ∈ encodedInstrs c x, i.wf c = true ∧ i.accepted c = true := fun i hi =>
    ⟨(hunits i hi).1, accepted_of_canonical (hunits i hi).2⟩
  rw [encodeAll_eq_encode htag]
  obtain ⟨out, hout⟩ := passUnits_of_accepted_units haccepted 0 Dec.reset
  obtain ⟨-, tail, htail, hstream⟩ := decodeAll_ok_stream (c := c) hout
  obtain ⟨tail', htail', hstream'⟩ := encodedInstrs_stream hempty x
  rw [payloadStream, unitsOf_flatMap_encode fun i hi => (hunits i hi).1, hstream'] at hstream
  exact hout.trans (congrArg DecResult.ok (bytes_eq_of_bitStream_append_eq htail' htail hstream).symm)

/-- What a step keeps, a run keeps. -/
theorem core_run_keeps {P : State → Prop} (hstep : ∀ s t, P s → step s = .next t → P t) {k : Nat} {s t : State}
    (hs : P s) (h : core.run k s = .next t) : P t :=
  core_run_keeps_relation (R := fun s _ => P s) (fun hP ht _ => hstep _ _ hP ht) k hs h h

/-- DEC holds no operation and no START stands at it. -/
abbrev DecAtRest (s : State) : Prop := s.dec.start = none ∧ s.dec.phase ≠ .run

theorem step_keeps_decAtRest (s t : State) (hrest : DecAtRest s) (h : step s = .next t) : DecAtRest t := by
  obtain ⟨hkept, -⟩ := onlyStartAndEndChangeThePhase s t h
  rwa [DecAtRest, hkept hrest.1 hrest.2]

/-- After an ENCODE from a state in which both engines may be STARTed, the host may START a DECODE. -/
theorem readyDec_after_encodeRun {s t : State} {src : List Byte} (henc : ReadyEnc s) (hdec : ReadyDec s)
    (h : EncodeRun s src t) : ReadyDec t ∧ t.cfg = s.cfg := by
  have hinv : Inv (presentStart .enc src s) := henc.1
  have hcfg : (presentStart .enc src s).cfg = s.cfg := rfl
  have hrest : DecAtRest (presentStart .enc src s) := ⟨henc.2.1, hdec.2.2⟩
  obtain ⟨u, hu, hrun⟩ := core_run_succ_cases h
  obtain ⟨-, hstart⟩ := step_takes_starts hu
  refine ⟨⟨core_run_keeps stepKeepsTheInvariant hinv h, ?_, (core_run_keeps step_keeps_decAtRest hrest h).2⟩, ?_⟩
  · exact core_run_keeps (P := fun s => s.enc.start = none) (fun _ _ _ hs => (step_takes_starts hs).2) hstart hrun
  · exact core_run_keeps (P := fun v => v.cfg = s.cfg)
      (fun v w hv hw => (stepKeepsTheConfiguration v w hw).trans hv) hcfg h

/-- Settles O50: both runs have the results of the one-piece operations, and those are inverse. -/
theorem decodeOfEncodeIsTheInput : Obligations.DecodeOfEncodeIsTheInput := by
  intro s x henc hdec hlegal hempty
  obtain ⟨t, ht, -, hy⟩ := encodeMatchesTheClosedForm s x henc
  obtain ⟨hready, hcfg⟩ := readyDec_after_encodeRun henc hdec ht
  obtain ⟨v, hv, hresult⟩ := decodeMatchesTheOnePass t (encodeAll s.cfg x) hready
  rw [hcfg, decodeAll_encodeAll hlegal hempty] at hresult
  exact ⟨t, _, v, ht, hy, hv, decDst_eq_some_iff.mpr hresult⟩

end Sys2Proof.Machine

/-! PROOFS. The exception claims (60_exceptions.md): the unit that raises `MalformedInput` (R163, R166), and DECODE as
the search for the first violation of its source (R164). -/

namespace Sys2Proof.Machine

/-! ### A rejected unit -/

/-- Settles O12: a rejected unit has a first unmarked consumed position, and takes the exception there. -/
theorem rejectedUnitIsMalformed : Obligations.RejectedUnitIsMalformed := by
  intro i s hrejected
  obtain ⟨⟨j, p⟩, hfirst⟩ := exists_first_unmarked (ne_true_of_eq_false hrejected)
  obtain ⟨t, ht, hmalformed⟩ := exec_is_malformed hfirst
  exact ⟨j, p, t, hfirst, ht, hmalformed⟩

/-! ### The violations of a source, unit by unit -/

theorem violationAt_nil (c : Cfg) (off : Nat) : violationAt c [] off = false := by
  simp [violationAt, decode]

/-- The violations after the first four bytes are those of the bytes that follow. -/
theorem violationAt_add_four (c : Cfg) (bytes : List Byte) (off : Nat) :
    violationAt c bytes (off + 4) = violationAt c (bytes.drop 4) off := by
  have hunit : (off + 4) / 4 * 4 = 4 + off / 4 * 4 := by omega
  rw [violationAt, violationAt, hunit, Nat.add_mod_right, List.drop_drop]

theorem decode_short_left {c : Cfg} {bytes : List Byte} {left : Nat} (h : decode c bytes = .error (.short left)) :
    left = bytes.length := by
  unfold decode at h
  split at h
  · split at h <;> cases h
  · cases h
    rfl

/-- Bytes that begin with no unit are a violation at their start: a wrong lead byte (R162), or an incomplete unit
(R161). -/
theorem violationAt_zero_of_undecoded {c : Cfg} {bytes : List Byte} {e : DecodeError}
    (hdecode : decode c bytes = .error e) (hne : bytes ≠ []) : violationAt c bytes 0 = true := by
  cases e with
  | lead => simp [violationAt, hdecode]
  | short left => simp [violationAt, hdecode, decode_short_left hdecode, hne]

/-- The positions a unit consumes rise, and are positions of the unit. -/
theorem consumedOperands_positions (c : Cfg) (i : Instr) :
    (consumedOperands c i).Pairwise (fun e e' => e.1 < e'.1) ∧ ∀ e ∈ consumedOperands c i, e.1 < 4 := by
  cases i <;> simp [consumedOperands, allOperands, ncsOperands, skip1Operands, skip2Operands]

section Unit

variable {c : Cfg} {bytes rest : List Byte} {i : Instr}

/-- The violations within a unit whose lead byte is right are its unmarked consumed positions (R163). -/
theorem violationAt_iff_unmarked (hdecode : decode c bytes = .ok (i, rest)) {off : Nat} (hoff : off < 4) :
    violationAt c bytes off = true ↔ ∃ e ∈ consumedOperands c i, e.1 = off ∧ e.2.cm ≠ c.cont := by
  have hstart : off / 4 * 4 = 0 := by omega
  simp [violationAt, hstart, hdecode, Nat.mod_eq_of_lt hoff]

/-- Of the positions a unit consumes, the first that is unmarked is the lowest. -/
theorem first_unmarked_le {e e' : Nat × Payload}
    (h : (consumedOperands c i).find? (fun e => e.2.cm ≠ c.cont) = some e) (hmem : e' ∈ consumedOperands c i)
    (hunmarked : e'.2.cm ≠ c.cont) : e.1 ≤ e'.1 := by
  obtain ⟨-, before, after, hsplit, hmarked⟩ := List.find?_eq_some_iff_append.mp h
  obtain ⟨hrise, -⟩ := consumedOperands_positions c i
  rw [hsplit] at hmem hrise
  obtain ⟨-, hrise, -⟩ := List.pairwise_append.mp hrise
  obtain ⟨habove, -⟩ := List.pairwise_cons.mp hrise
  rcases List.mem_append.mp hmem with hbefore | hrest
  · exact absurd (hmarked e' hbefore) (by simp [hunmarked])
  · rcases List.mem_cons.mp hrest with rfl | hafter
    · exact le_rfl
    · exact (habove e' hafter).le

/-! ### The violation set -/

/-- The violation set of a source (R164), for the bytes that stand at `pos` in it. -/
def violations (c : Cfg) (bytes : List Byte) (pos : Nat) : Set Nat :=
  (pos + ·) '' {off | violationAt c bytes off = true}

theorem violations_nil (c : Cfg) (pos : Nat) : violations c [] pos = ∅ := by
  simp [violations, violationAt_nil]

/-- A unit DEC accepts has no violation: the set is that of the bytes after it. -/
theorem violations_of_accepted (hdecode : decode c bytes = .ok (i, rest)) (h : i.accepted c = true) (pos : Nat) :
    violations c bytes pos = violations c rest (pos + 4) := by
  obtain ⟨-, hrest, -⟩ := unitsOf_of_decode hdecode
  have hlater (off : Nat) : violationAt c bytes (off + 4) = violationAt c rest off := by
    rw [violationAt_add_four, hrest]
  ext off
  constructor
  · rintro ⟨o, ho, rfl⟩
    have hafter : 4 ≤ o := by
      by_contra hin
      obtain ⟨e, he, -, hunmarked⟩ := (violationAt_iff_unmarked hdecode (not_le.mp hin)).mp ho
      exact hunmarked ((accepted_iff_consumed_marked c i).mp h e he)
    obtain ⟨k, rfl⟩ := Nat.exists_eq_add_of_le' hafter
    exact ⟨k, (hlater k).symm.trans ho, by dsimp only; omega⟩
  · rintro ⟨o, ho, rfl⟩
    exact ⟨o + 4, (hlater o).trans ho, by dsimp only; omega⟩

/-- The least violation is that of the bytes by themselves, counted from where they stand. -/
theorem isLeast_violations {off : Nat} (hviolation : violationAt c bytes off = true)
    (hleast : ∀ o, violationAt c bytes o = true → off ≤ o) (pos : Nat) : IsLeast (violations c bytes pos) (pos + off) :=
  Monotone.map_isLeast (fun _ _ h => Nat.add_le_add_left h pos) ⟨hviolation, hleast⟩

theorem isLeast_violations_of_undecoded {e : DecodeError} (hdecode : decode c bytes = .error e) (hne : bytes ≠ [])
    (pos : Nat) : IsLeast (violations c bytes pos) pos :=
  isLeast_violations (violationAt_zero_of_undecoded hdecode hne) (fun o _ => o.zero_le) pos

/-- In a unit DEC rejects, the first unmarked consumed position is the least violation. -/
theorem isLeast_violations_of_unmarked (hdecode : decode c bytes = .ok (i, rest)) {e : Nat × Payload}
    (h : (consumedOperands c i).find? (fun e => e.2.cm ≠ c.cont) = some e) (pos : Nat) :
    IsLeast (violations c bytes pos) (pos + e.1) := by
  have hmem := List.mem_of_find?_eq_some h
  have hunmarked : e.2.cm ≠ c.cont := by simpa using List.find?_some h
  obtain ⟨-, hpositions⟩ := consumedOperands_positions c i
  have hin := hpositions e hmem
  refine isLeast_violations ((violationAt_iff_unmarked hdecode hin).mpr ⟨e, hmem, rfl, hunmarked⟩) (fun o ho => ?_) pos
  by_cases ho4 : o < 4
  · obtain ⟨e', hmem', rfl, hunmarked'⟩ := (violationAt_iff_unmarked hdecode ho4).mp ho
    exact first_unmarked_le h hmem' hunmarked'
  · omega

end Unit

/-- At offset 0 the least element of the set is the first violation, as the statement of R164 has it. -/
theorem isLeast_violations_iff (c : Cfg) (src : List Byte) (off : Nat) :
    IsLeast (violations c src 0) off ↔
      violationAt c src off = true ∧ ∀ o, o < off → violationAt c src o = false := by
  simp only [violations, zero_add, Set.image_id', IsLeast, mem_lowerBounds, Set.mem_ofPred_eq]
  refine and_congr_right fun _ => forall_congr' fun o => ?_
  rw [← not_lt, ← Bool.not_eq_true]
  exact imp_not_comm

theorem violations_eq_empty_iff (c : Cfg) (src : List Byte) :
    violations c src 0 = ∅ ↔ ∀ off, violationAt c src off = false := by
  simp [violations, Set.eq_empty_iff_forall_notMem]

/-! ### What a pass reports -/

/-- The result is right for a violation set: bytes if there is none, else the least one. -/
def DecResult.RightFor (violating : Set Nat) : DecResult → Prop
  | .ok _ => violating = ∅
  | .malformed off => IsLeast violating off

theorem DecResult.RightFor.malformed_iff {violating : Set Nat} {r : DecResult} (h : r.RightFor violating) (off : Nat) :
    r = .malformed off ↔ IsLeast violating off := by
  cases r with
  | ok out =>
    have hempty : violating = ∅ := h
    simp [hempty, IsLeast]
  | malformed off' => exact ⟨fun heq => by cases heq; exact h, fun hleast => congrArg _ (IsLeast.unique h hleast)⟩

theorem DecResult.RightFor.ok_iff {violating : Set Nat} {r : DecResult} (h : r.RightFor violating) :
    (∃ out, r = .ok out) ↔ violating = ∅ := by
  cases r with
  | ok out => exact ⟨fun _ => h, fun _ => ⟨out, rfl⟩⟩
  | malformed off =>
    have hleast : IsLeast violating off := h
    simp [hleast.nonempty.ne_empty]

/-- The pass searches for the least violation: it ends at the first unit that has one, and goes on after one that has
none. -/
theorem passUnits_rightFor (c : Cfg) (bytes : List Byte) (pos : Nat) (d : Dec) :
    (passUnits c bytes pos d.pass).RightFor (violations c bytes pos) := by
  by_cases hnil : bytes = []
  · subst hnil
    exact violations_nil c pos
  cases hdecode : decode c bytes with
  | error e =>
    rw [passUnits_of_undecoded hdecode hnil]
    exact isLeast_violations_of_undecoded hdecode hnil pos
  | ok p =>
    obtain ⟨i, rest⟩ := p
    by_cases haccepted : i.accepted c = true
    · obtain ⟨hlength, -⟩ := unitsOf_of_decode hdecode
      rw [passUnits_of_accepted hdecode haccepted, violations_of_accepted hdecode haccepted]
      exact passUnits_rightFor c rest (pos + 4) _
    · obtain ⟨e, he⟩ := exists_first_unmarked haccepted
      rw [passUnits_of_unmarked hdecode he]
      exact isLeast_violations_of_unmarked hdecode he pos
termination_by bytes.length

theorem decErrOffset_eq_some_iff {t : State} {off : Nat} :
    decErrOffset t = some off ↔ decResult t = some (.malformed off) := by
  unfold decErrOffset decResult
  cases t.dec.phase <;> simp

/-- Settles O47: the run has the result of the one-piece pass, and that is right for the violation set. -/
theorem decodeReportsTheFirstViolation : Obligations.DecodeReportsTheFirstViolation := by
  intro s src hready
  obtain ⟨t, ht, hresult⟩ := decodeMatchesTheOnePass s src hready
  have hright : (decodeAll s.cfg src).RightFor (violations s.cfg src 0) :=
    passUnits_rightFor s.cfg src 0 Dec.reset
  refine ⟨t, ht, fun off => ?_, ?_⟩
  · rw [decErrOffset_eq_some_iff, hresult, Option.some_inj, hright.malformed_iff, isLeast_violations_iff]
  · rw [Option.isSome_iff_exists, ← violations_eq_empty_iff, ← hright.ok_iff]
    simp only [decDst_eq_some_iff, hresult, Option.some_inj]

end Sys2Proof.Machine

/-! PROOFS. The reset and hazard claims (70_reset_and_hazards.md): reset (R180), the START in RUN (R187), and two ENCODE
results in a row (R184). -/

namespace Sys2Proof.Machine

/-! ### Two ENCODE results in a row -/

theorem encodedInstrs_accepted {c : Cfg} (hlegal : c.Legal) (src : List Byte) :
    ∀ i ∈ encodedInstrs c src, i.wf c = true ∧ i.accepted c = true := fun i hi =>
  have ⟨hwf, hcanonical⟩ := (encodedInstrs_canonicalStream hlegal src).1 i hi
  ⟨hwf, accepted_of_canonical hcanonical⟩

/-- DECODE of units DEC accepts delivers the whole bytes of their payload (41_decode.md R150). -/
theorem decodeAll_of_accepted_units {c : Cfg} {units : List Instr} {out : List Byte} {tail : List Bool}
    (haccepted : ∀ i ∈ units, i.wf c = true ∧ i.accepted c = true) (htail : tail.length < 8)
    (hpayload : units.flatMap (fun i => payloadBits (classify i)) = bitStream out ++ tail) :
    decodeAll c (units.flatMap (encode c)) = .ok out := by
  obtain ⟨out', hout'⟩ := passUnits_of_accepted_units haccepted 0 Dec.reset
  obtain ⟨-, tail', htail', hstream⟩ := decodeAll_ok_stream (c := c) hout'
  rw [payloadStream, unitsOf_flatMap_encode fun i hi => (haccepted i hi).1, hpayload] at hstream
  exact hout'.trans (congrArg DecResult.ok (bytes_eq_of_bitStream_append_eq htail htail' hstream).symm)

/-- Nine input bytes are the 72 payload bits of four full units, so whole groups of nine leave no padding
(40_encode.md R107). -/
theorem encodedInstrs_stream_of_nines {c : Cfg} (hempty : c.emptyUnits = 0) {src : List Byte}
    (hnine : src.length % 9 = 0) :
    (encodedInstrs c src).flatMap (fun i => payloadBits (classify i)) = bitStream src := by
  have hcount := unitCount_of_no_empty_unit hempty src.length
  have hunit : ∀ u < unitCount c src.length,
      payloadBits (classify (encodedInstr c src u)) = streamBits src (18 * u) 18 := fun u _ => by
    rw [payloadBits_encodedInstr, show 8 * src.length % 18 = 0 by omega, show finalWidth 0 = 18 from rfl, ite_self]
  have htotal : 18 * unitCount c src.length = 8 * src.length + 0 := by omega
  rw [encodedInstrs, List.flatMap_map, flatMap_range_streamBits src _ hunit, htotal, streamBits_eq_bitStream_append]
  exact List.append_nil _

theorem bitStream_append (x y : List Byte) : bitStream (x ++ y) = bitStream x ++ bitStream y :=
  List.flatMap_append

/-- Settles O51: the units of both results are accepted, and the payload of the first leaves no padding between the
bits of `x` and those of `y`. -/
theorem concatenatedResultsDecodeTogether : Obligations.ConcatenatedResultsDecodeTogether := by
  intro c x y hlegal hempty hnine
  have ⟨htag, _, _⟩ := hlegal
  obtain ⟨tail, htail, hy⟩ := encodedInstrs_stream hempty y
  rw [encodeAll_eq_encode htag, encodeAll_eq_encode htag, ← List.flatMap_append]
  refine decodeAll_of_accepted_units (fun i hi => ?_) htail ?_
  · exact (List.mem_append.mp hi).elim (encodedInstrs_accepted hlegal x i) (encodedInstrs_accepted hlegal y i)
  · rw [List.flatMap_append, encodedInstrs_stream_of_nines hempty hnine, hy, bitStream_append, List.append_assoc]

/-! ### A START in RUN -/

theorem decMove_of_start_in_run {s : State} {src : List Byte} (hst : s.dec.start = some src)
    (hph : s.dec.phase = .run) : decMove s = .refused (.startInRun .dec) := by
  rw [decMove, hst, hph]

theorem encMove_of_start_in_run {s : State} {src : List Byte} (hst : s.enc.start = some src)
    (hph : s.enc.phase = .run) : encMove s = .refused (.startInRun .enc) := by
  rw [encMove, hst, hph]

/-- Settles O22: DEC moves first, so its refusal is the step's. -/
theorem startInRunIsRefused : Obligations.StartInRunIsRefused := by
  refine fun s src => ⟨fun hst hph => ?_, encMove_of_start_in_run⟩
  rw [step, decMove_of_start_in_run hst hph, andThen]

/-! ### Reset -/

@[simp] theorem State.reset_enc_phase : State.reset.enc.phase = .idle := rfl
@[simp] theorem State.reset_dec_phase : State.reset.dec.phase = .idle := rfl

/-- The host reads no result of ENC in IDLE (70_reset_and_hazards.md R180). -/
theorem encDst_of_idle {s : State} (h : s.enc.phase = .idle) : encDst s = none := by
  rw [encDst, h]

/-- The host reads no result and no error offset of DEC in IDLE (70_reset_and_hazards.md R180). -/
theorem dec_reads_of_idle {s : State} (h : s.dec.phase = .idle) :
    decDst s = none ∧ decErrOffset s = none ∧ decResult s = none := by
  simp [decDst, decErrOffset, decResult, h]

/-- Settles O23: both engines are IDLE, and an IDLE engine shows nothing. -/
theorem resetHoldsNoResult : Obligations.ResetHoldsNoResult := by
  have henc : encDst State.reset = none := encDst_of_idle State.reset_enc_phase
  obtain ⟨hdst, herr, hresult⟩ := dec_reads_of_idle State.reset_dec_phase
  exact ⟨State.reset_enc_phase, State.reset_dec_phase, henc, hdst, congrArg (Option.map _) henc,
    congrArg (Option.map _) hdst, herr, hresult⟩

theorem encInv_of_idle (c : Cfg) {e : Enc} (h : e.phase = .idle) : EncInv c e := by
  simp [EncInv, h]

theorem decInv_of_idle {d : Dec} (h : d.phase = .idle) : DecInv d := by
  simp [DecInv, h]

/-- Settles O24: the invariant speaks of operations, and at reset both engines are IDLE. -/
theorem resetMeetsTheInvariant : Obligations.ResetMeetsTheInvariant :=
  ⟨encInv_of_idle _ State.reset_enc_phase, decInv_of_idle State.reset_dec_phase⟩

end Sys2Proof.Machine
